-- ==== Sys2Proof/Word.lean ====
section
/-! DEFINITION. The word types of UO-HEPC (00_scope.md R7, R8): a byte, and the command word of the host's port. -/

namespace Sys2Proof

/-- A byte, 8 bits (00_scope.md R7). -/
abbrev Byte := BitVec 8

/-- A host command word, 48 bits (30_encoding.md R93). -/
abbrev CommandWord := BitVec 48

/-- A byte sequence that the host transmits as one contiguous write (10_state.md R30). -/
abbrev Frame := List Byte

end Sys2Proof
end

