-- ==== Sys2Proof/Config.lean ====
section
/-! DEFINITION. The configuration `Cfg` of UO-HEPC (00_scope.md R5), well formed by construction (R6 (a) to (d)).

`Config.cfg` is the configuration of THIS hardware. It is opaque: the source gives no value for most fields, the spec
lets a model take all of them as arguments, and nothing can be proved of a field but what its type says
(log entries 1 and 13). Functions that depend on the configuration take a `Cfg`, so they can be tried on the
test configuration of 95_test_vectors.md. -/

namespace Sys2Proof

/-- An entry of `HTAB` (00_scope.md R5, 10_state.md R31, 30_encoding.md R92): `code` in `CODE_W` = 16 bits, and a
length in 1..16, held as length minus one so that R6 (a) holds of every entry. -/
structure TableEntry where
  code : BitVec 16
  lenPred : Fin 16
  deriving DecidableEq, Repr, Inhabited

/-- `HTAB(b).len`, in 1..16. -/
def TableEntry.len (e : TableEntry) : Nat := e.lenPred.val + 1

/-- The terminal code `TERM` (10_state.md R32, 30_encoding.md R92): `code` in 32 bits and a length in 1..32
(R6 (b)). -/
structure TerminalEntry where
  code : BitVec 32
  lenPred : Fin 32
  deriving DecidableEq, Repr, Inhabited

/-- `TERM.len`, in 1..32. -/
def TerminalEntry.len (e : TerminalEntry) : Nat := e.lenPred.val + 1

/-- `TEXT_CHECK` (00_scope.md R5, 90_conflicts.md C4). -/
inductive TextCheck where
  | utf8
  | ascii
  deriving DecidableEq, Repr, Inhabited

/-- The parameters of 00_scope.md R5. `featuresTail` and `charlistTail` are `FEATURES_RAW` and `CHARLIST_RAW` after
their first byte, which R6 (c) fixes; `rxcapPred` is `RXCAP` minus one, so R6 (d) holds; `nInstPred` is `N_INST` minus
one. -/
structure Cfg where
  htab : Byte → TableEntry
  term : TerminalEntry
  rxcapPred : Fin 65535
  ignLen : Byte → Nat
  textCheck : TextCheck
  listFlags : Byte
  shardIndex : BitVec 16
  shardName : Vector Byte 8
  shardStatus : Byte
  shardTz : Byte
  shardAddr : Vector Byte 4
  redirAddr : Vector Byte 4
  redirPort : BitVec 16
  redirKey : BitVec 32
  featuresTail : List Byte
  charlistTail : List Byte
  nInstPred : Nat
  deriving Inhabited

/-- `RXCAP`, in 1..65535 (R6 (d)). -/
def Cfg.rxcap (cfg : Cfg) : Nat := cfg.rxcapPred.val + 1

/-- `FEATURES_RAW`: non-empty, its first byte `0xB9` (R6 (c)). -/
def Cfg.featuresRaw (cfg : Cfg) : List Byte := 0xB9#8 :: cfg.featuresTail

/-- `CHARLIST_RAW`: non-empty, its first byte `0xA9` (R6 (c)). -/
def Cfg.charlistRaw (cfg : Cfg) : List Byte := 0xA9#8 :: cfg.charlistTail

/-- `N_INST`, at least 1. -/
def Cfg.nInst (cfg : Cfg) : Nat := cfg.nInstPred + 1

/-- The configuration of this hardware: fixed before reset is released, never changed (00_scope.md R5), and free:
no body, so a claim about it holds whatever the parameters are. -/
opaque Config.cfg : Cfg

end Sys2Proof
end

