-- ==== Sys2Proof/Syntax.lean ====
section
/-! DEFINITION. The instructions of UO-HEPC: one constructor per row of spec/opcode_table.json (30_encoding.md R82,
R88 to R90, R93). Ten host commands, five inbound packet classes, four outbound records. -/

namespace Sys2Proof

/-- One instruction of one of the three encoded layers (30_encoding.md R80). -/
inductive Instr where
  -- host commands (R93)
  /-- `RESET`, command code 0. -/
  | reset
  /-- `ENC_START`, command code 1. -/
  | encStart
  /-- `WRITE_BITS value, bit_count`, command code 2. -/
  | writeBits (value : BitVec 32) (bitCount : BitVec 6)
  /-- `ENC_PUT byte`, command code 3. -/
  | encPut (byte : Byte)
  /-- `ENC_FINISH`, command code 4. -/
  | encFinish
  /-- `READ_BYTE`, command code 5. -/
  | readByte
  /-- `BB_OFFSET`, command code 6. -/
  | bbOffset
  /-- `RX_LOAD n, data`, command code 7, with the `n` bytes of the data port. -/
  | rxLoad (n : BitVec 16) (data : List Byte)
  /-- `TX_POP`, command code 8. -/
  | txPop
  /-- `RD_STATUS`, command code 9. -/
  | rdStatus
  -- inbound packets (R82)
  /-- `LOGIN_SEED`, opcode `0xEF` (R83). -/
  | loginSeed (seed major minor revision patch : BitVec 32)
  /-- `ACCOUNT_LOGIN`, opcode `0x80` (R84): the two string fields as their 30 raw bytes. -/
  | accountLogin (username password : List Byte) (tail : Byte)
  /-- `SERVER_SELECT`, opcode `0xA0` (R85). -/
  | serverSelect (index : BitVec 16)
  /-- `POST_LOGIN`, opcode `0x91` (R86): the two string fields as their 30 raw bytes. -/
  | postLogin (key : BitVec 32) (str0 str1 : List Byte)
  /-- `IGNORED`, any other opcode (R87): the skipped body bytes are no operand, nothing interprets them. -/
  | ignored (op : Byte)
  -- outbound records (R88 to R90): functions of the configuration alone, so without operands
  /-- `SERVER_LIST`, opcode `0xA8`. -/
  | serverList
  /-- `SERVER_REDIRECT`, opcode `0x8C`. -/
  | serverRedirect
  /-- `FEATURES`, opcode `0xB9`. -/
  | features
  /-- `CHAR_LIST`, opcode `0xA9`. -/
  | charList
  deriving DecidableEq, Repr

/-- The mnemonic of an instruction, as spec/opcode_table.json and 30_encoding.md R99 spell it. -/
def Instr.mnemonic : Instr → String
  | .reset => "RESET"
  | .encStart => "ENC_START"
  | .writeBits _ _ => "WRITE_BITS"
  | .encPut _ => "ENC_PUT"
  | .encFinish => "ENC_FINISH"
  | .readByte => "READ_BYTE"
  | .bbOffset => "BB_OFFSET"
  | .rxLoad _ _ => "RX_LOAD"
  | .txPop => "TX_POP"
  | .rdStatus => "RD_STATUS"
  | .loginSeed _ _ _ _ _ => "LOGIN_SEED"
  | .accountLogin _ _ _ => "ACCOUNT_LOGIN"
  | .serverSelect _ => "SERVER_SELECT"
  | .postLogin _ _ _ => "POST_LOGIN"
  | .ignored _ => "IGNORED"
  | .serverList => "SERVER_LIST"
  | .serverRedirect => "SERVER_REDIRECT"
  | .features => "FEATURES"
  | .charList => "CHAR_LIST"

end Sys2Proof
end

