-- ==== Sys2Proof/WellFormed.lean ====
section
/-! DEFINITION. Which instructions are well formed: those that some encoding of the spec stands for. -/

namespace Sys2Proof

/-- `STR_W` (00_scope.md R5): the width of every fixed string field. -/
def strW : Nat := 30

/-- The four recognised inbound opcodes (30_encoding.md R82). -/
def recognisedOpcodes : List Byte := [0xEF#8, 0x80#8, 0xA0#8, 0x91#8]

/-- The length checks and the opcode check of the encodings: `RX_LOAD` carries exactly `n` data bytes (45_sequencer.md
R210), a string field has exactly 30 bytes (30_encoding.md R96), an ignored opcode is none of the recognised four
(R87). `WRITE_BITS` with a `bit_count` above 32 is a word of the table (the command is refused when it runs, R114). -/
def Instr.wf : Instr → Bool
  | .rxLoad n data => data.length == n.toNat
  | .accountLogin username password _ => username.length == strW && password.length == strW
  | .postLogin _ str0 str1 => str0.length == strW && str1.length == strW
  | .ignored op => !recognisedOpcodes.contains op
  | .reset | .encStart | .writeBits _ _ | .encPut _ | .encFinish | .readByte | .bbOffset | .txPop | .rdStatus => true
  | .loginSeed _ _ _ _ _ | .serverSelect _ => true
  | .serverList | .serverRedirect | .features | .charList => true

end Sys2Proof
end

