-- ==== Sys2Proof/Machine/Operands.lean ====
section
/-! DEFINITION. Operand forms (30_encoding.md R95 to R97) and the read side of the Packet Codec: the field
micro-operations RD_U8, RD_U16, RD_U32, RD_STR over a decode context (42_field_codec.md R150 to R156). Pure functions
of a byte space, so that one text serves the decoder on a list of bytes and the sequencer on `rx`. -/

namespace Sys2Proof.Machine

/-- `be(s)`, the big-endian value of a byte sequence (00_scope.md R10, 20_memory.md R55). -/
def be (s : List Byte) : Nat := s.foldl (fun acc b => acc * 256 + b.toNat) 0

/-- `be_bytes(v, n)`, the `n` bytes whose big-endian value is `v mod 256^n` (00_scope.md R10). -/
def beBytes (v : Nat) : Nat → List Byte
  | 0 => []
  | n + 1 => beBytes (v / 256) n ++ [BitVec.ofNat 8 (v % 256)]

/-- The code operand of a bit write (30_encoding.md R97): the `n` low-order bits of `value`. -/
def codeOperand (value n : Nat) : Nat := value % 2 ^ n

/-- `BODYLEN(0xEF)` (00_scope.md R5, 30_encoding.md R82). -/
def loginSeedBody : Nat := 20

/-- `BODYLEN(0x80)` (00_scope.md R5, 90_conflicts.md C2). -/
def accountLoginBody : Nat := 61

/-- `BODYLEN(0xA0)` (00_scope.md R5). -/
def serverSelectBody : Nat := 2

/-- `BODYLEN(0x91)` (00_scope.md R5). -/
def postLoginBody : Nat := 64

/-- Body length of a packet from its opcode alone (30_encoding.md R82; `BODYLEN` and `IGN_LEN` of 00_scope.md R5). -/
def bodyLen (cfg : Cfg) (op : Byte) : Nat :=
  if op = 0xEF#8 then loginSeedBody
  else if op = 0x80#8 then accountLoginBody
  else if op = 0xA0#8 then serverSelectBody
  else if op = 0x91#8 then postLoginBody
  else cfg.ignLen op

/-! ## Text fields -/

/-- The rows of the table of well-formed UTF-8 sequences of 42_field_codec.md R155: one list of byte ranges each. -/
def utf8Rows : List (List (Nat × Nat)) :=
  [ [(0x00, 0x7F)],
    [(0xC2, 0xDF), (0x80, 0xBF)],
    [(0xE0, 0xE0), (0xA0, 0xBF), (0x80, 0xBF)],
    [(0xE1, 0xEC), (0x80, 0xBF), (0x80, 0xBF)],
    [(0xED, 0xED), (0x80, 0x9F), (0x80, 0xBF)],
    [(0xEE, 0xEF), (0x80, 0xBF), (0x80, 0xBF)],
    [(0xF0, 0xF0), (0x90, 0xBF), (0x80, 0xBF), (0x80, 0xBF)],
    [(0xF1, 0xF3), (0x80, 0xBF), (0x80, 0xBF), (0x80, 0xBF)],
    [(0xF4, 0xF4), (0x80, 0x8F), (0x80, 0xBF), (0x80, 0xBF)] ]

/-- Cut one piece matching a row off the front of a byte sequence: the rest, or none where the row does not match. -/
def stripRow : List (Nat × Nat) → List Byte → Option (List Byte)
  | [], bs => some bs
  | _ :: _, [] => none
  | (lo, hi) :: row, b :: bs => if lo ≤ b.toNat ∧ b.toNat ≤ hi then stripRow row bs else none

/-- The bytes can be cut, with nothing left over, into at most `fuel` pieces each of which matches a row of R155. -/
def utf8Pieces : Nat → List Byte → Bool
  | _, [] => true
  | 0, _ :: _ => false
  | fuel + 1, b :: bs =>
    utf8Rows.any fun row =>
      match stripRow row (b :: bs) with
      | some rest => utf8Pieces fuel rest
      | none => false

/-- Well-formed UTF-8 (42_field_codec.md R155): a piece has at least one byte, so as many pieces as bytes suffice. -/
def validUtf8 (raw : List Byte) : Bool := utf8Pieces raw.length raw

/-- All bytes at most `0x7F` (42_field_codec.md R155). -/
def validAscii (raw : List Byte) : Bool := raw.all fun b => decide (b.toNat ≤ 0x7F)

/-- `valid_text` (42_field_codec.md R155). A field that passes under `ascii` passes under `utf8` (R155 says so, and
Laws/Operands.lean proves it), so such a field is accepted without asking which of the two is configured. -/
def validText (check : TextCheck) (raw : List Byte) : Bool :=
  if validAscii raw then true
  else match check with
    | .utf8 => validUtf8 raw
    | .ascii => false

/-- `trim` (42_field_codec.md R156): all trailing `0x00` bytes removed. -/
def trim (raw : List Byte) : List Byte := (raw.reverse.dropWhile (fun b => b == 0#8)).reverse

/-- A string operand (30_encoding.md R96): checked over all its raw bytes, then trimmed; none where it is not valid
text. -/
def textOf (check : TextCheck) (raw : List Byte) : Option (List Byte) :=
  if validText check raw then some (trim raw) else none

/-! ## Field reads -/

/-- The two fatal faults of the instance (60_exceptions.md R230). -/
inductive FatalFault where
  | incompleteBuffer
  | invalidUtf8
  deriving DecidableEq, Repr

/-- A decode context `(c, lim)` (42_field_codec.md R150): the field cursor and one past the last byte a field may
use. Local to one packet step. -/
structure Ctx where
  c : Nat
  lim : Nat
  deriving DecidableEq, Repr

/-- What a field read gives: a value and the context after it, a fault with the offset it names, or `noValue` where
the space holds no value at an address it had to give one for. -/
inductive Read (α : Type) where
  | ok (v : α) (x : Ctx)
  | raise (f : FatalFault) (info : Nat)
  | noValue (addr : Nat)
  deriving DecidableEq, Repr

/-- Go on with a read's value and context. -/
def Read.andThen {α β : Type} (r : Read α) (k : α → Ctx → Read β) : Read β :=
  match r with
  | .ok v x => k v x
  | .raise f info => .raise f info
  | .noValue a => .noValue a

/-- `MemRead(RX, a, n)` (00_scope.md R10) over a byte space: the `n` bytes from `a` on, or the first address that holds
no value. -/
def memRead (rd : Nat → Option Byte) : Nat → Nat → Except Nat (List Byte)
  | _, 0 => .ok []
  | a, n + 1 =>
    match rd a with
    | none => .error a
    | some b =>
      match memRead rd (a + 1) n with
      | .ok bs => .ok (b :: bs)
      | .error e => .error e

/-- The raw bytes of one field: the need check before any byte is read, the read, the cursor moved by exactly the width
(42_field_codec.md R150). -/
def rdField (rd : Nat → Option Byte) (x : Ctx) (w : Nat) : Read (List Byte) :=
  if x.lim - x.c < w then .raise .incompleteBuffer x.c
  else
    match memRead rd x.c w with
    | .ok bs => .ok bs { x with c := x.c + w }
    | .error a => .noValue a

/-- `RD_U8` (42_field_codec.md R151). -/
def rdU8 (rd : Nat → Option Byte) (x : Ctx) : Read Byte :=
  (rdField rd x 1).andThen fun bs x' => .ok (BitVec.ofNat 8 (be bs)) x'

/-- `RD_U16` (42_field_codec.md R152). -/
def rdU16 (rd : Nat → Option Byte) (x : Ctx) : Read (BitVec 16) :=
  (rdField rd x 2).andThen fun bs x' => .ok (BitVec.ofNat 16 (be bs)) x'

/-- `RD_U32` (42_field_codec.md R153). -/
def rdU32 (rd : Nat → Option Byte) (x : Ctx) : Read (BitVec 32) :=
  (rdField rd x 4).andThen fun bs x' => .ok (BitVec.ofNat 32 (be bs)) x'

/-- The 30 raw bytes of a string field, the first half of `RD_STR` (42_field_codec.md R154). -/
def rdRaw (rd : Nat → Option Byte) (x : Ctx) : Read (List Byte) := rdField rd x strW

/-- `RD_STR` (42_field_codec.md R154): the 30 raw bytes, their validity, the trimmed value. -/
def rdStr (check : TextCheck) (rd : Nat → Option Byte) (x : Ctx) : Read (List Byte) :=
  (rdRaw rd x).andThen fun raw x' =>
    match textOf check raw with
    | some s => .ok s x'
    | none => .raise .invalidUtf8 x.c

end Sys2Proof.Machine
end

