-- ==== Sys2Proof/Machine/Huffman.lean ====
section
/-! DEFINITION. The Bit Buffer and the function `wb` (40_bitbuffer.md R113), the function `compress`
(41_huffman_encoder.md R133), and, to state properties with, the bit stream a buffer stands for (20_memory.md R54) and
the reference decoder (41_huffman_encoder.md R137; no part of the hardware). -/

namespace Sys2Proof.Machine

/-- A Bit Buffer: `pv`, `pb`, `q` (10_state.md R21 to R23). -/
structure BitBuf where
  /-- `pending_value`, 7 bits, right-aligned (R22). -/
  pv : BitVec 7
  /-- `pending_bits`, 3 bits, 0..7 (R21). -/
  pb : BitVec 3
  /-- The completed bytes, first in first out (R23). -/
  q : List Byte
  deriving DecidableEq, Repr

/-- A fresh Bit Buffer (41_huffman_encoder.md R130, R133). -/
def BitBuf.empty : BitBuf := { pv := 0#7, pb := 0#3, q := [] }

/-- `wb(pv, pb, q, value, n)` (40_bitbuffer.md R113), its pseudocode line by line. -/
def wb (b : BitBuf) (value n : Nat) : BitBuf :=
  let v := codeOperand value n
  let acc := b.pv.toNat * 2 ^ n + v
  let t := b.pb.toNat + n
  let k := t / 8
  let r := t % 8
  { q := b.q ++ (List.range k).map fun i => BitVec.ofNat 8 (acc / 2 ^ (t - 8 * (i + 1)) % 256)
    pv := BitVec.ofNat 7 (acc % 2 ^ r)
    pb := BitVec.ofNat 3 r }

/-- `byte_boundary_offset()`: `(8 - pb) mod 8` (40_bitbuffer.md R112). -/
def boundaryOffset (b : BitBuf) : Nat := (8 - b.pb.toNat) % 8

/-- One byte's code written to a buffer (41_huffman_encoder.md R131, the loop body of R133). -/
def putByte (cfg : Cfg) (b : BitBuf) (x : Byte) : BitBuf :=
  wb b (cfg.htab x).code.toNat (cfg.htab x).len

/-- The terminal code once, then zero bits to the byte boundary (41_huffman_encoder.md R132, R133). -/
def finishStream (cfg : Cfg) (b : BitBuf) : BitBuf :=
  let b1 := wb b cfg.term.code.toNat cfg.term.len
  wb b1 0 (boundaryOffset b1)

/-- `compress(input)` on a scratch Bit Buffer (41_huffman_encoder.md R133). -/
def compress (cfg : Cfg) (input : List Byte) : List Byte :=
  (finishStream cfg (input.foldl (putByte cfg) BitBuf.empty)).q

/-! ## Streams of bits, for statements -/

/-- The `len` low-order bits of `code`, most significant first: `bits(c)` of 00_scope.md R6 (e). -/
def codeBits (code len : Nat) : List Bool := (List.range len).map fun i => code.testBit (len - 1 - i)

/-- The bits of output bytes, most significant bit of the first byte first (20_memory.md R54). -/
def bytesBits (bs : List Byte) : List Bool := bs.flatMap fun b => codeBits b.toNat 8

/-- `S(pv, pb, q)` (40_bitbuffer.md R113): the bytes of `q`, then the pending bits. -/
def BitBuf.stream (b : BitBuf) : List Bool := bytesBits b.q ++ codeBits b.pv.toNat b.pb.toNat

/-- `bits(HTAB(b))`. -/
def tableBits (e : TableEntry) : List Bool := codeBits e.code.toNat e.len

/-- `bits(TERM)`. -/
def termBits (e : TerminalEntry) : List Bool := codeBits e.code.toNat e.len

/-- The string of one of the 257 symbols: a byte, or the terminal code (`none`). -/
def symbolBits (cfg : Cfg) : Option Byte → List Bool
  | some b => tableBits (cfg.htab b)
  | none => termBits cfg.term

/-- The prefix property (00_scope.md R6 (e)): the 257 strings are pairwise distinct and none is a proper prefix of
another, that is, no string begins another symbol's string. A premise of the round trip alone. -/
def PrefixCode (cfg : Cfg) : Prop :=
  ∀ x y : Option Byte, symbolBits cfg x <+: symbolBits cfg y → x = y

/-- The number of code bits of a message (41_huffman_encoder.md R134): the sum of the codes' lengths and `TERM.len`. -/
def codeLength (cfg : Cfg) (input : List Byte) : Nat :=
  (input.map fun b => (cfg.htab b).len).sum + cfg.term.len

/-- The reference decoder on a bit string, at most `fuel` symbols (41_huffman_encoder.md R137): it stops at the
terminal code, outputs a byte for each other entry, and fails where nothing matches. -/
def decodeBits (cfg : Cfg) : Nat → List Bool → Option (List Byte)
  | 0, _ => none
  | fuel + 1, bits =>
    if (termBits cfg.term).isPrefixOf bits then some []
    else
      match ((List.range 256).map (BitVec.ofNat 8)).find? (fun b => (tableBits (cfg.htab b)).isPrefixOf bits) with
      | none => none
      | some b => (decodeBits cfg fuel (bits.drop (cfg.htab b).len)).map (b :: ·)

/-- `decode(bytes)` (41_huffman_encoder.md R137): every symbol has at least one bit, so as many symbols as bits
suffice. -/
def refDecode (cfg : Cfg) (bytes : List Byte) : Option (List Byte) :=
  decodeBits cfg (bytesBits bytes).length (bytesBits bytes)

end Sys2Proof.Machine
end

