-- ==== Sys2Proof/Machine/Assembly.lean ====
section
/-! DEFINITION. The write side of the Packet Codec: ASM_NEW, WR_U8, WR_U16, WR_U32, WR_BYTES (42_field_codec.md R157 to
R161), and the four outbound records and their frames (44_packets_outbound.md R190 to R193). Functions of `Cfg` alone. -/

namespace Sys2Proof.Machine

/-- `ASM_NEW(size)` (42_field_codec.md R157): every byte zero. -/
def asmNew (size : Nat) : List Byte := List.replicate size 0#8

/-- `WR_BYTES(B, a, s)` (42_field_codec.md R161). -/
def wrBytes (B : List Byte) (a : Nat) : List Byte → List Byte
  | [] => B
  | v :: s => wrBytes (B.set a v) (a + 1) s

/-- `WR_U8(B, a, v)` (42_field_codec.md R158). -/
def wrU8 (B : List Byte) (a : Nat) (v : Byte) : List Byte := wrBytes B a [v]

/-- `WR_U16(B, a, v)`, big-endian (42_field_codec.md R159). -/
def wrU16 (B : List Byte) (a : Nat) (v : BitVec 16) : List Byte := wrBytes B a (beBytes v.toNat 2)

/-- `WR_U32(B, a, v)`, big-endian (42_field_codec.md R160). -/
def wrU32 (B : List Byte) (a : Nat) (v : BitVec 32) : List Byte := wrBytes B a (beBytes v.toNat 4)

/-- `server_list_record()` (44_packets_outbound.md R190), 46 bytes. -/
def serverListRecord (cfg : Cfg) : Frame :=
  let B := asmNew 46
  let B := wrU8 B 0 0xA8#8
  let B := wrU16 B 1 46#16
  let B := wrU8 B 3 cfg.listFlags
  let B := wrU16 B 4 1#16
  let B := wrU16 B 6 cfg.shardIndex
  let B := wrBytes B 8 cfg.shardName.toList
  let B := wrU8 B 40 cfg.shardStatus
  let B := wrU8 B 41 cfg.shardTz
  wrBytes B 42 cfg.shardAddr.toList

/-- `server_redirect_record()` (44_packets_outbound.md R191), 11 bytes. -/
def serverRedirectRecord (cfg : Cfg) : Frame :=
  let B := asmNew 11
  let B := wrU8 B 0 0x8C#8
  let B := wrBytes B 1 cfg.redirAddr.toList
  let B := wrU16 B 5 cfg.redirPort
  wrU32 B 7 cfg.redirKey

/-- The `FEATURES` frame (44_packets_outbound.md R192): the whole raw record through the encoder. -/
def featuresFrame (cfg : Cfg) : Frame := compress cfg cfg.featuresRaw

/-- The `CHAR_LIST` frame (44_packets_outbound.md R193): a second, independent encode operation. -/
def charListFrame (cfg : Cfg) : Frame := compress cfg cfg.charlistRaw

end Sys2Proof.Machine
end

