-- ==== Sys2Proof/Decode.lean ====
section
/-! DEFINITION. Decoding and encoding (30_encoding.md). The three layers of R80 are three spaces: a command word with the
bytes of the data port, an inbound packet in `rx`, an outbound record. The same bytes mean different things in
different spaces (R94 (g): an outbound opcode arriving inbound is IGNORED), so the space is an input of the decoder. -/

namespace Sys2Proof

/-- Why bits are no instruction. -/
inductive Reject where
  /-- Command codes `0xA` to `0xF` (30_encoding.md R94 (a)). -/
  | reservedCode
  /-- A non-zero must-be-zero bit (R94 (b)). -/
  | mustBeZero
  /-- The data port holds `given` bytes, not the `n` of the word (45_sequencer.md R210; `n` is 0 for every command
  but RX_LOAD). -/
  | dataCount (n given : Nat)
  /-- A recognised packet whose body does not fit before the end of the buffer (45_sequencer.md R211). -/
  | short (op : Byte)
  /-- The space holds no value at the address. -/
  | noValue (addr : Nat)
  /-- The first byte is no outbound opcode, or the length is not that record's (R88 to R90). -/
  | notRecord
  deriving DecidableEq, Repr

/-! ## Host command words -/

/-- The fields of a command word (30_encoding.md R93). -/
structure CommandFields where
  code : BitVec 4
  n6 : BitVec 6
  reserved : BitVec 6
  imm : BitVec 32
  deriving DecidableEq, Repr

/-- Cut a command word into its fields: bits 47:44, 43:38, 37:32, 31:0 (R93). -/
def commandFields (w : CommandWord) : CommandFields :=
  { code := w.extractLsb' 44 4, n6 := w.extractLsb' 38 6, reserved := w.extractLsb' 32 6, imm := w.extractLsb' 0 32 }

/-- The word with given fields, most significant first (R93). -/
def commandWord (f : CommandFields) : CommandWord := f.code ++ f.n6 ++ f.reserved ++ f.imm

/-- A command without operands: `n6`, the reserved bits and `imm` must be 0. -/
def plainCommand (f : CommandFields) (i : Instr) : Except Reject Instr :=
  if f.n6 = 0#6 ∧ f.reserved = 0#6 ∧ f.imm = 0#32 then .ok i else .error .mustBeZero

/-- The command a word stands for, the bytes of the data port going to RX_LOAD as they are (30_encoding.md R93, R94). -/
def decodeCommandWord (w : CommandWord) (data : List Byte) : Except Reject Instr :=
  let f := commandFields w
  match f.code.toNat with
  | 0 => plainCommand f .reset
  | 1 => plainCommand f .encStart
  | 2 => if f.reserved = 0#6 then .ok (.writeBits f.imm f.n6) else .error .mustBeZero
  | 3 =>
    if f.n6 = 0#6 ∧ f.reserved = 0#6 ∧ f.imm.extractLsb' 8 24 = 0#24 then .ok (.encPut (f.imm.extractLsb' 0 8))
    else .error .mustBeZero
  | 4 => plainCommand f .encFinish
  | 5 => plainCommand f .readByte
  | 6 => plainCommand f .bbOffset
  | 7 =>
    if f.n6 = 0#6 ∧ f.reserved = 0#6 ∧ f.imm.extractLsb' 16 16 = 0#16 then .ok (.rxLoad (f.imm.extractLsb' 0 16) data)
    else .error .mustBeZero
  | 8 => plainCommand f .txPop
  | 9 => plainCommand f .rdStatus
  | _ => .error .reservedCode

/-- How many bytes the data port must carry with a command (30_encoding.md R93): `n` for RX_LOAD, none otherwise. -/
def dataNeed : Instr → Nat
  | .rxLoad n _ => n.toNat
  | _ => 0

/-- Decode one host transaction: the word, then the count of the data bytes. -/
def decodeCommand (w : CommandWord) (data : List Byte) : Except Reject Instr :=
  match decodeCommandWord w data with
  | .error e => .error e
  | .ok i => if data.length = dataNeed i then .ok i else .error (.dataCount (dataNeed i) data.length)

/-! ## Inbound packets -/

/-- What a field read means for the decoder: the instruction built from the fields, or the reason there is none. -/
def ofRead (op : Byte) (r : Machine.Read Instr) : Except Reject Instr :=
  match r with
  | .ok i _ => .ok i
  | .raise _ _ => .error (.short op)
  | .noValue a => .error (.noValue a)

/-- The body of a LOGIN_SEED packet (30_encoding.md R83, 43_packets_inbound.md R170). -/
def readLoginSeed (rd : Nat → Option Byte) (x : Machine.Ctx) : Machine.Read Instr :=
  (Machine.rdU32 rd x).andThen fun seed x =>
  (Machine.rdU32 rd x).andThen fun major x =>
  (Machine.rdU32 rd x).andThen fun minor x =>
  (Machine.rdU32 rd x).andThen fun revision x =>
  (Machine.rdU32 rd x).andThen fun patch x =>
  .ok (.loginSeed seed major minor revision patch) x

/-- The body of an ACCOUNT_LOGIN packet (30_encoding.md R84), its strings raw. -/
def readAccountLogin (rd : Nat → Option Byte) (x : Machine.Ctx) : Machine.Read Instr :=
  (Machine.rdRaw rd x).andThen fun username x =>
  (Machine.rdRaw rd x).andThen fun password x =>
  (Machine.rdU8 rd x).andThen fun tail x =>
  .ok (.accountLogin username password tail) x

/-- The body of a SERVER_SELECT packet (30_encoding.md R85). -/
def readServerSelect (rd : Nat → Option Byte) (x : Machine.Ctx) : Machine.Read Instr :=
  (Machine.rdU16 rd x).andThen fun index x => .ok (.serverSelect index) x

/-- The body of a POST_LOGIN packet (30_encoding.md R86), its strings raw. -/
def readPostLogin (rd : Nat → Option Byte) (x : Machine.Ctx) : Machine.Read Instr :=
  (Machine.rdU32 rd x).andThen fun key x =>
  (Machine.rdRaw rd x).andThen fun str0 x =>
  (Machine.rdRaw rd x).andThen fun str1 x =>
  .ok (.postLogin key str0 str1) x

/-- Read a recognised packet's body of `len` bytes behind the opcode at `cur`, after the packet-level length check
(45_sequencer.md R211): nothing of the body is read where it does not fit. -/
def decodeBody (cur lim len : Nat) (op : Byte) (read : Machine.Ctx → Machine.Read Instr) : Except Reject Instr :=
  if lim < cur + 1 + len then .error (.short op) else ofRead op (read { c := cur + 1, lim := cur + 1 + len })

/-- Decode the packet whose opcode stands at `cur` in a space of which `lim` bytes are valid (30_encoding.md R81, R82):
the opcode byte alone selects the layout. An IGNORED packet's body is not read; whether it fits is checked when it
runs (43_packets_inbound.md R174). -/
def decodePacket (rd : Nat → Option Byte) (cur lim : Nat) : Except Reject Instr :=
  match rd cur with
  | none => .error (.noValue cur)
  | some op =>
    if op = 0xEF#8 then decodeBody cur lim Machine.loginSeedBody op (readLoginSeed rd)
    else if op = 0x80#8 then decodeBody cur lim Machine.accountLoginBody op (readAccountLogin rd)
    else if op = 0xA0#8 then decodeBody cur lim Machine.serverSelectBody op (readServerSelect rd)
    else if op = 0x91#8 then decodeBody cur lim Machine.postLoginBody op (readPostLogin rd)
    else .ok (.ignored op)

/-- A byte list as a space: byte `i` at address `i`, no value past its end. -/
def listSpace (bs : List Byte) : Nat → Option Byte := fun i => bs[i]?

/-- Decode a packet that stands at the front of a byte list. -/
def decodePacketBytes (bs : List Byte) : Except Reject Instr := decodePacket (listSpace bs) 0 bs.length

/-! ## Outbound records -/

/-- Which record a raw record's bytes are (30_encoding.md R88 to R90): its first byte, and for the two raw ones their
fixed length. The block itself never decodes a record; its contents are `Cfg`'s, so no operand is read. -/
def decodeRecord (bs : List Byte) : Except Reject Instr :=
  match bs with
  | [] => .error .notRecord
  | op :: _ =>
    if op = 0xA8#8 ∧ bs.length = 46 then .ok .serverList
    else if op = 0x8C#8 ∧ bs.length = 11 then .ok .serverRedirect
    else if op = 0xB9#8 then .ok .features
    else if op = 0xA9#8 then .ok .charList
    else .error .notRecord

/-! ## All spaces at once, and the encoder -/

/-- Encoded bits with the space they stand in (30_encoding.md R80). -/
inductive Encoding where
  | command (w : CommandWord) (data : List Byte)
  | packet (bytes : List Byte)
  | record (bytes : List Byte)
  deriving DecidableEq, Repr

/-- The decoder: total, rejecting by name. -/
def decode : Encoding → Except Reject Instr
  | .command w data => decodeCommand w data
  | .packet bytes => decodePacketBytes bytes
  | .record bytes => decodeRecord bytes

/-- The word of a command without operands (30_encoding.md R93). -/
def plainWord (code : BitVec 4) : Encoding :=
  .command (commandWord { code := code, n6 := 0#6, reserved := 0#6, imm := 0#32 }) []

/-- The encoding of an instruction, from the tables of 30_encoding.md R83 to R90 and R93. The bytes an IGNORED packet
skips are not interpreted (R87): the encoder writes zeros. -/
def encode (cfg : Cfg) : Instr → Encoding
  | .reset => plainWord 0#4
  | .encStart => plainWord 1#4
  | .writeBits value bitCount =>
    .command (commandWord { code := 2#4, n6 := bitCount, reserved := 0#6, imm := value }) []
  | .encPut byte => .command (commandWord { code := 3#4, n6 := 0#6, reserved := 0#6, imm := 0#24 ++ byte }) []
  | .encFinish => plainWord 4#4
  | .readByte => plainWord 5#4
  | .bbOffset => plainWord 6#4
  | .rxLoad n data => .command (commandWord { code := 7#4, n6 := 0#6, reserved := 0#6, imm := 0#16 ++ n }) data
  | .txPop => plainWord 8#4
  | .rdStatus => plainWord 9#4
  | .loginSeed seed major minor revision patch =>
    .packet (0xEF#8 :: (Machine.beBytes seed.toNat 4 ++ Machine.beBytes major.toNat 4 ++ Machine.beBytes minor.toNat 4
      ++ Machine.beBytes revision.toNat 4 ++ Machine.beBytes patch.toNat 4))
  | .accountLogin username password tail => .packet (0x80#8 :: (username ++ password ++ [tail]))
  | .serverSelect index => .packet (0xA0#8 :: Machine.beBytes index.toNat 2)
  | .postLogin key str0 str1 => .packet (0x91#8 :: (Machine.beBytes key.toNat 4 ++ str0 ++ str1))
  | .ignored op => .packet (op :: List.replicate (cfg.ignLen op) 0#8)
  | .serverList => .record (Machine.serverListRecord cfg)
  | .serverRedirect => .record (Machine.serverRedirectRecord cfg)
  | .features => .record cfg.featuresRaw
  | .charList => .record cfg.charlistRaw

/-! ## Table words -/

/-- A table word's first byte and `n` more: byte `k` is bits `8k+7` to `8k` (98_reader.md). -/
def tableBytes (n w : Nat) : List Byte :=
  BitVec.ofNat 8 w :: (List.range n).map fun k => BitVec.ofNat 8 (w / 2 ^ (8 * (k + 1)))

/-- How many bytes follow the first byte of a table word of `nbits` bits: the body of the packet or the rest of the
record its first byte selects, and at least the bytes that the table gives. -/
def tableTail (cfg : Cfg) (nbits w : Nat) : Nat :=
  let op : Byte := BitVec.ofNat 8 w
  let rest :=
    if op = 0xA8#8 then 45
    else if op = 0x8C#8 then 10
    else if op = 0xB9#8 ∨ op = 0xA9#8 then 0
    else Machine.bodyLen cfg op
  if rest < nbits / 8 - 1 then nbits / 8 - 1 else rest

/-- The space a table word stands in (log entry 11): 48-bit rows are command words; a word whose first byte is one of
the four outbound opcodes is that record's row; every other word is an inbound packet's. -/
def tableEncoding (cfg : Cfg) (nbits w : Nat) : Encoding :=
  if nbits = 48 then .command (BitVec.ofNat 48 w) (List.replicate (if w / 2 ^ 44 % 16 = 7 then w % 2 ^ 16 else 0) 0#8)
  else
    let op : Byte := BitVec.ofNat 8 w
    if op = 0xA8#8 ∨ op = 0x8C#8 ∨ op = 0xB9#8 ∨ op = 0xA9#8 then .record (tableBytes (tableTail cfg nbits w) w)
    else .packet (tableBytes (tableTail cfg nbits w) w)

/-- The instruction the decoder reads from a row's word as spec/opcode_table.json numbers its bits, every bit above
`nbits` zero. -/
def decodeTableWord (nbits w : Nat) : Option Instr := (decode (tableEncoding Config.cfg nbits w)).toOption

end Sys2Proof
end

