-- ==== Sys2Proof/Machine/State.lean ====
section
/-! DEFINITION. The state of one instance (10_state.md R20), its reset value (R38), and the reasons a step can stop. -/

namespace Sys2Proof.Machine

/-- Encoder phase `ph` (10_state.md R24). -/
inductive Phase where
  | idle
  | active
  | done
  deriving DecidableEq, Repr

/-- Sequencer state `seq` (10_state.md R27). -/
inductive SeqState where
  | idle
  | run
  | fault
  deriving DecidableEq, Repr

/-- An event of the output trace (10_state.md R37). Integers are unsigned 32-bit and 16-bit values, strings the trimmed
fields, `offset` the value of `cur` at which the ignored opcode stood. -/
inductive Event where
  | loginSeed (seed major minor revision patch : BitVec 32)
  | accountLogin (username password : List Byte) (tail : Byte)
  | serverSelect (index : BitVec 16)
  | postLogin (key : BitVec 32) (str0 str1 : List Byte)
  | unknown (op : Byte) (offset : Nat)
  deriving DecidableEq, Repr

/-- The result part of an accepted command's response (30_encoding.md R93). -/
inductive Result where
  | none
  | byte (value : Option Byte)
  | offset (value : BitVec 3)
  | frame (value : Option Frame)
  | status (value : BitVec 32)
  deriving DecidableEq, Repr

/-- What a command returns (30_encoding.md R93, 45_sequencer.md R217). -/
inductive Response where
  | ok (result : Result)
  | refused
  deriving DecidableEq, Repr

/-- One move of the host (45_sequencer.md R218): issue a command word with the bytes on the data port, or hold. -/
inductive HostMove where
  | issue (word : CommandWord) (data : List Byte)
  | hold
  deriving DecidableEq, Repr

/-- The machine stops. No instruction's effect is given up by either: they stand outside what the spec describes. -/
inductive Fault where
  /-- The sequencer asked for a byte of `rx` that holds no value (10_state.md R25, 20_memory.md R59). Raised by the
  packet fetch of Machine/Ops.lean; it cannot happen in a state that meets the invariant of Safety.lean. Safe. -/
  | rxNoValue (addr : Nat)
  /-- A host transaction whose data port carries `given` bytes where its word says `n` (45_sequencer.md R210: "a
  sequence of exactly `n` bytes"): no move of the spec's host. Raised by the command fetch of Machine/Ops.lean and by
  RX_LOAD. Safe. -/
  | dataCount (n given : Nat)
  deriving DecidableEq, Repr

/-- There is no meaning to give. -/
inductive Refusal where
  /-- An instruction that the model gives no meaning yet: raised by exec's arms alone. Safe. -/
  | notModelled (mnemonic : String)
  /-- A packet or record rule asked for while `seq` is not `S_RUN`: "Enabled exactly when `seq = S_RUN`" (45_sequencer.md
  R211). Raised by the packet and record meanings; a step never asks for one then. Safe. -/
  | notEnabled
  deriving DecidableEq, Repr

/-- The mutable state of one instance: the eleven items of 10_state.md R20 (`pv`, `pb`, `q` are the Bit Buffer `bb`), and
three fields of the model's own: the event trace (R37), the response port (30_encoding.md R93) and the host's coming
moves (log entries 2 and 4). -/
structure State where
  /-- `pv`, `pb`, `q` (R21 to R23). -/
  bb : BitBuf
  /-- Encoder phase (R24). -/
  ph : Phase
  /-- The receive buffer: the bytes that hold a value, by rising address (R25, 93_implementation_defined.md U10). -/
  rx : List Host.Cell
  /-- How many bytes of `rx` are valid (R25). -/
  nRx : Nat
  /-- The read cursor, the program counter (R26). -/
  cur : Nat
  /-- Sequencer state (R27). -/
  seq : SeqState
  /-- Cause code of the fatal fault, 0 for none (R28). -/
  cause : BitVec 3
  /-- Sticky: an ignored opcode was skipped (R29). -/
  unk : Bool
  /-- Frames enqueued for the host (R30). -/
  txq : List Frame
  /-- The events so far, oldest first (R37). -/
  trace : List Event
  /-- The response of the last command, none before the first. -/
  resp : Option Response
  /-- The host's coming moves, the next one first. -/
  port : List HostMove
  deriving DecidableEq, Repr

/-- The machine right after reset (10_state.md R38): `rx` holds no value; the last two fields are the model's own (log
entry 12). -/
def State.reset : State :=
  { bb := BitBuf.empty
    ph := .idle
    rx := []
    nRx := 0
    cur := 0
    seq := .idle
    cause := 0#3
    unk := false
    txq := []
    trace := []
    resp := none
    port := [] }

end Sys2Proof.Machine
end

