-- ==== Sys2Proof/Machine/Flags.lean ====
section
/-! DEFINITION. Codes of the enumerations and the STATUS view (10_state.md R24, R27, R33; 60_exceptions.md R230). -/

namespace Sys2Proof.Machine

/-- `E_IDLE = 0`, `E_ACTIVE = 1`, `E_DONE = 2` (10_state.md R20). -/
def phaseCode : Phase → BitVec 2
  | .idle => 0#2
  | .active => 1#2
  | .done => 2#2

/-- `S_IDLE = 0`, `S_RUN = 1`, `S_FAULT = 2` (10_state.md R20). -/
def seqCode : SeqState → BitVec 2
  | .idle => 0#2
  | .run => 1#2
  | .fault => 2#2

/-- `code(F)` of the two fatal faults (60_exceptions.md R230). -/
def causeCode : FatalFault → BitVec 3
  | .incompleteBuffer => 1#3
  | .invalidUtf8 => 2#3

/-- A one-bit field. -/
def bit (b : Bool) : BitVec 1 := if b then 1#1 else 0#1

/-- The 32-bit STATUS view (10_state.md R33), most significant field first: `cur` in 31:16, 15:10 reserved, `tx_ne` 9,
`q_ne` 8, `unk` 7, `cause` 6:4, `ph` 3:2, `seq` 1:0. -/
def statusView (s : State) : BitVec 32 :=
  BitVec.ofNat 16 s.cur ++ 0#6 ++ bit (!s.txq.isEmpty) ++ bit (!s.bb.q.isEmpty) ++ bit s.unk ++ s.cause
    ++ phaseCode s.ph ++ seqCode s.seq

end Sys2Proof.Machine
end

