-- ==== Sys2Proof/Machine/Ops.lean ====
section
/-! DEFINITION. The shared operations: memory of `rx`, refusing and completing a command, fault entry and reset (the
only way out of it), the packet step, frame enqueue, and fetching what comes next. -/

namespace Sys2Proof.Machine

/-- The answer of a meaning. -/
abbrev Outcome := Host.Outcome State Fault Refusal

/-! ## The memory of `rx` -/

/-- Bytes laid out from an address on. -/
def cellsFrom (a : Nat) : List Byte → List Host.Cell
  | [] => []
  | b :: bs => (a, b) :: cellsFrom (a + 1) bs

/-- The byte at an address; an address that is not listed holds no value (10_state.md R25). -/
def memGet (m : List Host.Cell) (a : Nat) : Option Byte :=
  match m with
  | [] => none
  | (k, b) :: m' => if k = a then some b else memGet m' a

/-- The canonical form: addresses strictly rising (an unlisted address holds no value, so no entry can equal one). -/
def memWf : List Host.Cell → Bool
  | [] => true
  | [_] => true
  | (a, _) :: (b, v) :: m => decide (a < b) && memWf ((b, v) :: m)

/-- `rx[a]` as the block may read it: never at or beyond `n_rx` (20_memory.md R59). -/
def rxRead (s : State) (a : Nat) : Option Byte := if a < s.nRx then memGet s.rx a else none

/-- `rx[0..n) <- data; n_rx <- n; cur <- 0; seq <- S_RUN` (45_sequencer.md R210): bytes at and beyond `n` hold no
value. -/
def loadRx (data : List Byte) (s : State) : State :=
  { s with rx := cellsFrom 0 data, nRx := data.length, cur := 0, seq := .run }

/-! ## Commands -/

/-- The response REFUSED, nothing else changed (45_sequencer.md R217). -/
def refuse (s : State) : Outcome := .next { s with resp := some .refused }

/-- An accepted command's new state with its response. -/
def complete (r : Result) (s : State) : Outcome := .next { s with resp := some (.ok r) }

/-- Reset of the instance (10_state.md R38, 45_sequencer.md R216): every item of R20 and the trace at its reset value.
The host's coming moves are the host's, not the instance's, and stay. -/
def restart (s : State) : State := { State.reset with port := s.port }

/-! ## Fault entry -/

/-- Fault entry (60_exceptions.md R239): `cause <- code(F)`, `seq <- S_FAULT`, nothing else. There is no return (R240):
`restart` alone leaves `S_FAULT`. -/
def takeFault (f : FatalFault) (s : State) : State := { s with cause := causeCode f, seq := .fault }

/-! ## Frames and packets -/

/-- Append one frame to `txq` (44_packets_outbound.md R194). -/
def pushFrame (f : Frame) (s : State) : State := { s with txq := s.txq ++ [f] }

/-- The meaning of an outbound record: its frame is enqueued by the running sequencer (44_packets_outbound.md R194,
R195). -/
def sendRecord (f : Frame) (s : State) : Outcome :=
  if s.seq = .run then .next (pushFrame f s) else .refused .notEnabled

/-- What a packet rule yields (43_packets_inbound.md): its event, its response frames in order, and whether it skips an
ignored opcode (which sets `unk`). -/
structure PacketEffect where
  event : Event
  frames : List Frame
  skips : Bool
  deriving DecidableEq, Repr

/-- The commit of a packet step (45_sequencer.md R211): the event, the frames in order, the cursor moved past the
packet; `unk` set by an ignored opcode (43_packets_inbound.md R174). -/
def commit (len : Nat) (e : PacketEffect) (s : State) : State :=
  let s := e.frames.foldl (fun s f => pushFrame f s) s
  { s with trace := s.trace ++ [e.event], cur := s.cur + 1 + len, unk := s.unk || e.skips }

/-- One packet of the running sequencer (45_sequencer.md R211): the packet-level length check comes first
(`n_rx - cur - 1 < len`), then the packet rule; a fault drops every effect of the step (60_exceptions.md R238, R239). -/
def packetState (len : Nat) (body : Except FatalFault PacketEffect) (s : State) : State :=
  if s.nRx < s.cur + 1 + len then takeFault .incompleteBuffer s
  else
    match body with
    | .error f => takeFault f s
    | .ok e => commit len e s

/-- The packet step is enabled in `S_RUN` only (45_sequencer.md R211). -/
def packetStep (len : Nat) (body : Except FatalFault PacketEffect) (s : State) : Outcome :=
  if s.seq = .run then .next (packetState len body s) else .refused .notEnabled

/-- End of pass (45_sequencer.md R212). -/
def endPass (s : State) : State := { s with seq := .idle }

/-! ## What comes next -/

/-- What a step has to do: run an instruction in a state, or nothing but an outcome already settled. -/
inductive Work where
  | run (i : Instr) (s : State)
  | settled (o : Outcome)

/-- A host command: a word the decoder rejects is refused like a command in a wrong state (30_encoding.md R94,
45_sequencer.md R217); a transaction with a wrong number of data bytes is none of the spec's. -/
def commandWork (w : CommandWord) (data : List Byte) (s : State) : Work :=
  match decodeCommand w data with
  | .ok i => .run i s
  | .error (.dataCount n given) => .settled (.fault (.dataCount n given))
  | .error _ => .settled (refuse s)

/-- The sequencer's move in `S_RUN` (45_sequencer.md R211, R212): the end of the pass, or the packet at `cur`; a
recognised packet that does not fit raises IncompleteBuffer before any of its body is read (60_exceptions.md R231). -/
def packetWork (s : State) : Work :=
  if s.cur = s.nRx then .settled (.next (endPass s))
  else
    match decodePacket (rxRead s) s.cur s.nRx with
    | .ok i => .run i s
    | .error (.noValue a) => .settled (.fault (.rxNoValue a))
    | .error _ => .settled (.next (takeFault .incompleteBuffer s))

/-- The instance while the host issues nothing: the sequencer steps in `S_RUN`; in `S_IDLE` and `S_FAULT` it waits
(60_exceptions.md R240, R245). -/
def heldWork (s : State) : Work := if s.seq = .run then packetWork s else .settled (.next s)

/-- The next move (45_sequencer.md R218): the host's, or the instance's where the host holds or has nothing left. -/
def nextWork (s : State) : Work :=
  match s.port with
  | .issue w data :: rest => commandWork w data { s with port := rest }
  | .hold :: rest => heldWork { s with port := rest }
  | [] => heldWork s

/-- Bring an encoding to where the next step fetches from (log entry 3): a command to the front of the host's moves; a
packet to `rx` at `cur` with the sequencer running; for an outbound record, which is never fetched (44_packets_outbound.md
R195), the packet whose step sends it. -/
def place (e : Encoding) (s : State) : State :=
  let packet (bs : List Byte) : State :=
    { s with
      rx := s.rx.filter (fun cell => cell.1 < s.cur) ++ cellsFrom s.cur bs
      nRx := s.cur + bs.length
      seq := .run
      port := .hold :: s.port }
  match e with
  | .command w data => { s with port := .issue w data :: s.port }
  | .packet bs => packet bs
  | .record bs =>
    match bs.head? with
    | some 0xA8#8 => packet (0x80#8 :: List.replicate accountLoginBody 0#8)
    | some 0x8C#8 => packet (0xA0#8 :: List.replicate serverSelectBody 0#8)
    | _ => packet (0x91#8 :: List.replicate postLoginBody 0#8)

end Sys2Proof.Machine
end

