-- ==== Sys2Proof/Machine/BitBuffer.lean ====
section
/-! DEFINITION. The Bit Buffer commands (40_bitbuffer.md): WRITE_BITS, READ_BYTE, BB_OFFSET. -/

namespace Sys2Proof.Machine

/-- `WRITE_BITS value, bit_count` (40_bitbuffer.md R110): accepted in `S_IDLE` with `ph = E_ACTIVE` and `bit_count ≤ 32`;
beyond 32 it is refused and has no result (R114). -/
def execWriteBits (value : BitVec 32) (bitCount : BitVec 6) (s : State) : Outcome :=
  if s.seq = .idle ∧ s.ph = .active ∧ bitCount.toNat ≤ 32 then
    complete .none { s with bb := wb s.bb value.toNat bitCount.toNat }
  else refuse s

/-- `READ_BYTE` (40_bitbuffer.md R111): the front byte of `q`, removed, or `none`; accepted in `S_IDLE`. -/
def execReadByte (s : State) : Outcome :=
  if s.seq = .idle then
    match s.bb.q with
    | [] => complete (.byte none) s
    | b :: rest => complete (.byte (some b)) { s with bb := { s.bb with q := rest } }
  else refuse s

/-- `BB_OFFSET` (40_bitbuffer.md R112): `(8 - pb) mod 8`; accepted in `S_IDLE`. -/
def execBbOffset (s : State) : Outcome :=
  if s.seq = .idle then complete (.offset (BitVec.ofNat 3 (boundaryOffset s.bb))) s else refuse s

end Sys2Proof.Machine
end

