-- ==== Sys2Proof/Machine/Encoder.lean ====
section
/-! DEFINITION. The Huffman Encoder commands (41_huffman_encoder.md): ENC_START, ENC_PUT, ENC_FINISH. -/

namespace Sys2Proof.Machine

/-- `ENC_START` (41_huffman_encoder.md R130): a new, empty Bit Buffer, undrained bytes discarded; accepted in `S_IDLE`,
any phase. -/
def execEncStart (s : State) : Outcome :=
  if s.seq = .idle then complete .none { s with bb := BitBuf.empty, ph := .active } else refuse s

/-- `ENC_PUT byte` (41_huffman_encoder.md R131): the byte's table code is written; accepted in `S_IDLE` with
`ph = E_ACTIVE`. -/
def execEncPut (byte : Byte) (s : State) : Outcome :=
  if s.seq = .idle ∧ s.ph = .active then complete .none { s with bb := putByte Config.cfg s.bb byte } else refuse s

/-- `ENC_FINISH` (41_huffman_encoder.md R132): the terminal code, zero bits to the byte boundary, `ph <- E_DONE`;
accepted in `S_IDLE` with `ph = E_ACTIVE`. -/
def execEncFinish (s : State) : Outcome :=
  if s.seq = .idle ∧ s.ph = .active then complete .none { s with bb := finishStream Config.cfg s.bb, ph := .done }
  else refuse s

end Sys2Proof.Machine
end

