-- ==== Sys2Proof/Machine/HostCmd.lean ====
section
/-! DEFINITION. The host's control commands (45_sequencer.md): RESET, RX_LOAD, TX_POP, RD_STATUS. -/

namespace Sys2Proof.Machine

/-- `RESET` (45_sequencer.md R216): accepted always; the reset state of 10_state.md R38. -/
def execReset (s : State) : Outcome := complete .none (restart s)

/-- `RX_LOAD n, data` (45_sequencer.md R210): accepted in `S_IDLE` with `1 ≤ n ≤ RXCAP`. Its operand is a sequence of
exactly `n` bytes; any other is no transaction of the spec's (log entry 6). -/
def execRxLoad (n : BitVec 16) (data : List Byte) (s : State) : Outcome :=
  if data.length = n.toNat then
    if s.seq = .idle ∧ 1 ≤ n.toNat ∧ n.toNat ≤ Config.cfg.rxcap then complete .none (loadRx data s) else refuse s
  else .fault (.dataCount n.toNat data.length)

/-- `TX_POP` (45_sequencer.md R215): the front frame, removed, or `valid = 0`; accepted in `S_IDLE` and `S_FAULT`. -/
def execTxPop (s : State) : Outcome :=
  if s.seq = .run then refuse s
  else
    match s.txq with
    | [] => complete (.frame none) s
    | f :: rest => complete (.frame (some f)) { s with txq := rest }

/-- `RD_STATUS` (45_sequencer.md R220): the STATUS view; accepted in `S_IDLE` and `S_FAULT`. -/
def execRdStatus (s : State) : Outcome :=
  if s.seq = .run then refuse s else complete (.status (statusView s)) s

end Sys2Proof.Machine
end

