-- ==== Sys2Proof/Machine/Inbound.lean ====
section
/-! DEFINITION. The inbound packet rules (43_packets_inbound.md R170 to R174), each run by the packet step of
45_sequencer.md R211. No decoded value influences a response (R175). -/

namespace Sys2Proof.Machine

/-- `LOGIN_SEED` (43_packets_inbound.md R170): an event, no response. -/
def execLoginSeed (seed major minor revision patch : BitVec 32) (s : State) : Outcome :=
  packetStep loginSeedBody
    (.ok { event := .loginSeed seed major minor revision patch, frames := [], skips := false }) s

/-- The rule body of `ACCOUNT_LOGIN` (43_packets_inbound.md R171): username, then password (60_exceptions.md R238);
one server-list frame. -/
def accountLoginBodyOf (cfg : Cfg) (username password : List Byte) (tail : Byte) : Except FatalFault PacketEffect :=
  match textOf cfg.textCheck username with
  | none => .error .invalidUtf8
  | some u =>
    match textOf cfg.textCheck password with
    | none => .error .invalidUtf8
    | some p => .ok { event := .accountLogin u p tail, frames := [serverListRecord cfg], skips := false }

/-- `ACCOUNT_LOGIN` (43_packets_inbound.md R171). -/
def execAccountLogin (username password : List Byte) (tail : Byte) (s : State) : Outcome :=
  packetStep accountLoginBody (accountLoginBodyOf Config.cfg username password tail) s

/-- `SERVER_SELECT` (43_packets_inbound.md R172): the index is reported and not checked; one redirect frame. -/
def execServerSelect (index : BitVec 16) (s : State) : Outcome :=
  packetStep serverSelectBody
    (.ok { event := .serverSelect index, frames := [serverRedirectRecord Config.cfg], skips := false }) s

/-- The rule body of `POST_LOGIN` (43_packets_inbound.md R173): `str0`, then `str1`; the features frame, then the
character-list frame. -/
def postLoginBodyOf (cfg : Cfg) (key : BitVec 32) (str0 str1 : List Byte) : Except FatalFault PacketEffect :=
  match textOf cfg.textCheck str0 with
  | none => .error .invalidUtf8
  | some t0 =>
    match textOf cfg.textCheck str1 with
    | none => .error .invalidUtf8
    | some t1 => .ok { event := .postLogin key t0 t1, frames := [featuresFrame cfg, charListFrame cfg], skips := false }

/-- `POST_LOGIN` (43_packets_inbound.md R173). -/
def execPostLogin (key : BitVec 32) (str0 str1 : List Byte) (s : State) : Outcome :=
  packetStep postLoginBody (postLoginBodyOf Config.cfg key str0 str1) s

/-- `IGNORED` (43_packets_inbound.md R174): `unk` set, EV_UNK with the opcode and its offset, no response; the body of
`IGN_LEN(op)` bytes is skipped unread, and has to fit like any other (60_exceptions.md R231). -/
def execIgnored (op : Byte) (s : State) : Outcome :=
  packetStep (Config.cfg.ignLen op) (.ok { event := .unknown op s.cur, frames := [], skips := true }) s

end Sys2Proof.Machine
end

