-- ==== Sys2Proof/Machine/Outbound.lean ====
section
/-! DEFINITION. The outbound records (44_packets_outbound.md R190 to R193) as the sequencer sends them: the frame built
from `Cfg` alone and enqueued whole (R194), while the sequencer runs (R195: only as responses). -/

namespace Sys2Proof.Machine

/-- `SERVER_LIST` (44_packets_outbound.md R190): 46 bytes, raw. -/
def execServerList (s : State) : Outcome := sendRecord (serverListRecord Config.cfg) s

/-- `SERVER_REDIRECT` (44_packets_outbound.md R191): 11 bytes, raw. -/
def execServerRedirect (s : State) : Outcome := sendRecord (serverRedirectRecord Config.cfg) s

/-- `FEATURES` (44_packets_outbound.md R192): the compressed record; the instance's own Bit Buffer is not used. -/
def execFeatures (s : State) : Outcome := sendRecord (featuresFrame Config.cfg) s

/-- `CHAR_LIST` (44_packets_outbound.md R193): the compressed record, a second independent encode operation. -/
def execCharList (s : State) : Outcome := sendRecord (charListFrame Config.cfg) s

end Sys2Proof.Machine
end

