-- ==== Sys2Proof/Machine/Dispatch.lean ====
section
/-! DEFINITION. The meaning of each instruction, by constructor. -/

namespace Sys2Proof.Machine

def exec (i : Instr) (s : State) : Host.Outcome State Fault Refusal :=
  match i with
  | .reset => Sys2Proof.Machine.execReset s
  | .encStart => Sys2Proof.Machine.execEncStart s
  | .writeBits value bitCount => Sys2Proof.Machine.execWriteBits value bitCount s
  | .encPut byte => Sys2Proof.Machine.execEncPut byte s
  | .encFinish => Sys2Proof.Machine.execEncFinish s
  | .readByte => Sys2Proof.Machine.execReadByte s
  | .bbOffset => Sys2Proof.Machine.execBbOffset s
  | .rxLoad n data => Sys2Proof.Machine.execRxLoad n data s
  | .txPop => Sys2Proof.Machine.execTxPop s
  | .rdStatus => Sys2Proof.Machine.execRdStatus s
  | .loginSeed seed major minor revision patch => Sys2Proof.Machine.execLoginSeed seed major minor revision patch s
  | .accountLogin username password tail => Sys2Proof.Machine.execAccountLogin username password tail s
  | .serverSelect index => Sys2Proof.Machine.execServerSelect index s
  | .postLogin key str0 str1 => Sys2Proof.Machine.execPostLogin key str0 str1 s
  | .ignored op => Sys2Proof.Machine.execIgnored op s
  | .serverList => Sys2Proof.Machine.execServerList s
  | .serverRedirect => Sys2Proof.Machine.execServerRedirect s
  | .features => Sys2Proof.Machine.execFeatures s
  | .charList => Sys2Proof.Machine.execCharList s

end Sys2Proof.Machine
end

