-- ==== Sys2Proof/Machine/Step.lean ====
section
/-! DEFINITION. One step: what comes next (Machine/Ops.lean) and its meaning (Machine/Dispatch.lean). -/

namespace Sys2Proof.Machine

/-- One atomic transition of an instance or its host (00_scope.md R4, 45_sequencer.md R218). -/
def step (s : State) : Host.Outcome State Fault Refusal :=
  match nextWork s with
  | .run i s' => exec i s'
  | .settled o => o

/-- `s` with a row's word where the next step fetches (log entry 3). -/
def State.withFetchWord (s : State) (nbits w : Nat) : State := place (tableEncoding Config.cfg nbits w) s

end Sys2Proof.Machine
end

