-- ==== Sys2Proof/Machine/Reference.lean ====
section
/-! DEFINITION. The sequencer step as the spec writes it down: the pseudocode of 45_sequencer.md R211 over the field
micro-operations of 42_field_codec.md, packet rule by packet rule (43_packets_inbound.md). It decodes and acts field by
field from `rx`, where the machine decodes an instruction and then runs it; a statement says that the two agree. -/

namespace Sys2Proof.Machine

/-- R170: five RD_U32. -/
def refLoginSeed (rd : Nat → Option Byte) (x : Ctx) : Read PacketEffect :=
  (rdU32 rd x).andThen fun seed x =>
  (rdU32 rd x).andThen fun major x =>
  (rdU32 rd x).andThen fun minor x =>
  (rdU32 rd x).andThen fun revision x =>
  (rdU32 rd x).andThen fun patch x =>
  .ok { event := .loginSeed seed major minor revision patch, frames := [], skips := false } x

/-- R171: RD_STR, RD_STR, RD_U8. -/
def refAccountLogin (cfg : Cfg) (rd : Nat → Option Byte) (x : Ctx) : Read PacketEffect :=
  (rdStr cfg.textCheck rd x).andThen fun username x =>
  (rdStr cfg.textCheck rd x).andThen fun password x =>
  (rdU8 rd x).andThen fun tail x =>
  .ok { event := .accountLogin username password tail, frames := [serverListRecord cfg], skips := false } x

/-- R172: RD_U16. -/
def refServerSelect (cfg : Cfg) (rd : Nat → Option Byte) (x : Ctx) : Read PacketEffect :=
  (rdU16 rd x).andThen fun index x =>
  .ok { event := .serverSelect index, frames := [serverRedirectRecord cfg], skips := false } x

/-- R173: RD_U32, RD_STR, RD_STR. -/
def refPostLogin (cfg : Cfg) (rd : Nat → Option Byte) (x : Ctx) : Read PacketEffect :=
  (rdU32 rd x).andThen fun key x =>
  (rdStr cfg.textCheck rd x).andThen fun str0 x =>
  (rdStr cfg.textCheck rd x).andThen fun str1 x =>
  .ok { event := .postLogin key str0 str1, frames := [compress cfg cfg.featuresRaw, compress cfg cfg.charlistRaw],
        skips := false } x

/-- The packet rule selected by the opcode: a closed, total, five-way choice (45_sequencer.md R219). -/
def refPacket (cfg : Cfg) (op : Byte) (offset : Nat) (rd : Nat → Option Byte) (x : Ctx) : Read PacketEffect :=
  if op = 0xEF#8 then refLoginSeed rd x
  else if op = 0x80#8 then refAccountLogin cfg rd x
  else if op = 0xA0#8 then refServerSelect cfg rd x
  else if op = 0x91#8 then refPostLogin cfg rd x
  else .ok { event := .unknown op offset, frames := [], skips := true } x

/-- The sequencer step (45_sequencer.md R211, R212), every write of a committing step at once. -/
def refSequencerStep (cfg : Cfg) (s : State) : Outcome :=
  if s.cur = s.nRx then .next { s with seq := .idle }
  else
    match rxRead s s.cur with
    | none => .fault (.rxNoValue s.cur)
    | some op =>
      let rem := s.nRx - s.cur - 1
      let len := bodyLen cfg op
      if rem < len then .next { s with cause := 1#3, seq := .fault }
      else
        match refPacket cfg op s.cur (rxRead s) { c := s.cur + 1, lim := s.cur + 1 + len } with
        | .ok e _ =>
          .next { s with
            trace := s.trace ++ [e.event]
            txq := s.txq ++ e.frames
            cur := s.cur + 1 + len
            unk := s.unk || e.skips }
        | .raise f _ => .next { s with cause := causeCode f, seq := .fault }
        | .noValue a => .fault (.rxNoValue a)

end Sys2Proof.Machine
end

