-- ==== Sys2Proof/Machine/Script.lean ====
section
/-! DEFINITION. Host scripts (30_encoding.md R99): running a list of commands and collecting the responses, the
pseudo-instructions COMPRESS, PAD and DRAIN as their expansions (R100), and the text of a script line. No part of the
machine's step: a way to speak of several commands in a row. -/

namespace Sys2Proof.Machine

/-- Run commands one after another, each completing before the next is issued (45_sequencer.md R218): the last state and
the responses in order; none where a command stops. -/
def runScript : List Instr → State → Option (State × List Response)
  | [], s => some (s, [])
  | i :: is, s =>
    match exec i s with
    | .next s' => (runScript is s').map fun (t, rs) => (t, s'.resp.toList ++ rs)
    | .fault _ => none
    | .refused _ => none

/-- The commands of `COMPRESS b0 ... bk-1` before its drain (30_encoding.md R100). -/
def compressScript (input : List Byte) : List Instr := [.encStart] ++ input.map .encPut ++ [.encFinish]

/-- `PAD` after a BB_OFFSET that answered `k` (30_encoding.md R100): `WRITE_BITS 0, k`. -/
def padScript (k : BitVec 3) : List Instr := [.writeBits 0#32 (0#3 ++ k)]

/-- `n` repetitions of READ_BYTE, the body of `DRAIN` (30_encoding.md R100). -/
def drainScript (n : Nat) : List Instr := List.replicate n .readByte

/-- The bytes that READ_BYTEs returned with `valid = 1`, in order. -/
def bytesRead (rs : List Response) : List Byte :=
  rs.filterMap fun r =>
    match r with
    | .ok (.byte b) => b
    | .ok .none | .ok (.offset _) | .ok (.frame _) | .ok (.status _) => none
    | .refused => none

/-- The bytes that the ENC_PUTs of a script put, in order. -/
def bytesPut (is : List Instr) : List Byte :=
  is.filterMap fun i =>
    match i with
    | .encPut b => some b
    | .reset | .encStart | .writeBits _ _ | .encFinish | .readByte | .bbOffset | .rxLoad _ _ | .txPop | .rdStatus => none
    | .loginSeed _ _ _ _ _ | .accountLogin _ _ _ | .serverSelect _ | .postLogin _ _ _ | .ignored _ => none
    | .serverList | .serverRedirect | .features | .charList => none

/-- READ_BYTE or BB_OFFSET: the commands a host may interleave (41_huffman_encoder.md R135). -/
def isProbe (i : Instr) : Bool := decide (i = .readByte) || decide (i = .bbOffset)

/-! ## Text (30_encoding.md R99) -/

/-- One hexadecimal digit. -/
def hexDigit (n : Nat) : String := String.singleton ("0123456789ABCDEF".toList.getD (n % 16) '0')

/-- A byte as a hex pair. -/
def hexByte (b : Byte) : String := hexDigit (b.toNat / 16) ++ hexDigit b.toNat

/-- Bytes as hex pairs, first byte first (00_scope.md R9). -/
def hexBytes (bs : List Byte) : String := String.intercalate " " (bs.map hexByte)

/-- The script line of a host command, or the hex bytes of an inbound packet (30_encoding.md R99); an outbound record is
never written in a script. R99 fixes no number form: DESIGN CHOICE, the two numbers of WRITE_BITS in decimal, the byte of
ENC_PUT in hex with `0x`; of the two forms R99 allows for a packet, its bytes (log entry 23). -/
def scriptLine (i : Instr) : String :=
  match i with
  | .writeBits value bitCount => i.mnemonic ++ " " ++ toString value.toNat ++ ", " ++ toString bitCount.toNat
  | .encPut byte => i.mnemonic ++ " 0x" ++ hexByte byte
  | .rxLoad _ data => i.mnemonic ++ " " ++ hexBytes data
  | .reset | .encStart | .encFinish | .readByte | .bbOffset | .txPop | .rdStatus => i.mnemonic
  | .ignored op => ".byte " ++ hexByte op
  | .loginSeed _ _ _ _ _ | .accountLogin _ _ _ | .serverSelect _ | .postLogin _ _ _ =>
    match encode Config.cfg i with
    | .packet bs => hexBytes bs
    | .command _ _ | .record _ => ""
  | .serverList | .serverRedirect | .features | .charList => ""

/-- The `-> result` part of a script line (30_encoding.md R99); empty for a command without a result. R99 writes
RD_STATUS's result as `<fields>` and gives no text for a refused command: DESIGN CHOICE, the STATUS word as four hex bytes,
most significant first, and the word REFUSED (log entry 23). -/
def resultText (r : Response) : String :=
  match r with
  | .refused => "REFUSED"
  | .ok .none => ""
  | .ok (.byte b) => match b with
    | some b => "-> " ++ hexByte b
    | none => "-> none"
  | .ok (.offset k) => "-> " ++ toString k.toNat
  | .ok (.frame f) => match f with
    | some f => "-> " ++ hexBytes f
    | none => "-> none"
  | .ok (.status w) => "-> " ++ hexBytes (beBytes w.toNat 4)

end Sys2Proof.Machine
end

