-- ==== Sys2Proof/Machine/System.lean ====
section
/-! DEFINITION. `N_INST` instances (60_exceptions.md R244): the product of independent copies of the one-instance machine,
a scheduler choosing at each step which copy moves. The copies share `Cfg` alone (20_memory.md R63). -/

namespace Sys2Proof.Machine

/-- All instances, one per live connection. -/
structure System where
  insts : List State
  deriving DecidableEq, Repr

/-- Every instance right after reset (60_exceptions.md R244: an instance starts by RESET). -/
def System.reset : System := { insts := List.replicate Config.cfg.nInst State.reset }

/-- What one move of the system gives: the next system, or the stop of the instance that moved; none where there is no
such instance. -/
inductive SystemOutcome where
  | next (sys : System)
  | stopped (k : Nat) (o : Outcome)
  | noInstance

/-- Instance `k` takes one step, the others stand still. -/
def stepInstance (k : Nat) (sys : System) : SystemOutcome :=
  match sys.insts[k]? with
  | none => .noInstance
  | some s =>
    match step s with
    | .next s' => .next { insts := sys.insts.set k s' }
    | .fault f => .stopped k (.fault f)
    | .refused r => .stopped k (.refused r)

/-- A schedule: which instance moves at each step, any interleaving (60_exceptions.md R244). A stop of one instance leaves
every other as it was (60_exceptions.md R247), and the schedule goes on. -/
def runSchedule : List Nat → System → System
  | [], sys => sys
  | k :: ks, sys =>
    match stepInstance k sys with
    | .next sys' => runSchedule ks sys'
    | .stopped _ _ => runSchedule ks sys
    | .noInstance => runSchedule ks sys

end Sys2Proof.Machine
end

