-- ==== Sys2Proof/Safety.lean ====
section
/-! DEFINITION. What a sound state is: the invariants of 10_state.md R39, and what a sound host transaction is. -/

namespace Sys2Proof.Machine

/-- The invariants of 10_state.md R39, with the two facts about `rx` and `cause` that the spec states beside them (R25: the
valid bytes hold values and no others do; R28: the codes that `cause` can hold). R39 (i) is the width of `pb`. -/
structure State.Inv (s : State) : Prop where
  /-- (ii) `pv < 2^pb`. -/
  pending : s.bb.pv.toNat < 2 ^ s.bb.pb.toNat
  /-- R25: exactly `rx[0..n_rx)` hold values. -/
  values : s.rx.map Prod.fst = List.range s.nRx
  /-- (iii) `cur ≤ n_rx`. -/
  cursor : s.cur ≤ s.nRx
  /-- (iii) `n_rx ≤ RXCAP`. -/
  capacity : s.nRx ≤ Config.cfg.rxcap
  /-- (iv) `cause ≠ 0` exactly when `seq = S_FAULT`. -/
  causeFault : s.cause ≠ 0#3 ↔ s.seq = .fault
  /-- R28, R230: only 0, 1 and 2 stand in `cause`. -/
  causeKnown : s.cause = 0#3 ∨ s.cause = 1#3 ∨ s.cause = 2#3
  /-- (v) `ph = E_DONE` implies `pb = 0` and `pv = 0`. -/
  doneAligned : s.ph = .done → s.bb.pb = 0#3 ∧ s.bb.pv = 0#7
  /-- (vi) `ph = E_IDLE` implies `pb = 0`, `pv = 0`, `q = []`. -/
  idleEmpty : s.ph = .idle → s.bb = BitBuf.empty
  /-- (vii) every frame in `txq` is non-empty. -/
  frames : ∀ f ∈ s.txq, f ≠ []

/-- Every transaction the host has coming carries exactly the data bytes of its word (45_sequencer.md R210). -/
def State.PortSound (s : State) : Prop :=
  ∀ w data, HostMove.issue w data ∈ s.port → ∀ n given, decodeCommand w data ≠ .error (.dataCount n given)

/-- The host holds: its next move is `hold`, or it has none left (log entry 2). The instance's own move is next; what the
host does afterwards is open. -/
def hostHolds : List HostMove → Bool
  | [] => true
  | .hold :: _ => true
  | .issue _ _ :: _ => false

/-- The three encoded layers (30_encoding.md R80). -/
inductive Layer where
  | command
  | packet
  | record
  deriving DecidableEq, Repr

/-- The layer an instruction belongs to. -/
def layer : Instr → Layer
  | .reset | .encStart | .writeBits _ _ | .encPut _ | .encFinish | .readByte | .bbOffset | .rxLoad _ _ => .command
  | .txPop | .rdStatus => .command
  | .loginSeed _ _ _ _ _ | .accountLogin _ _ _ | .serverSelect _ | .postLogin _ _ _ | .ignored _ => .packet
  | .serverList | .serverRedirect | .features | .charList => .record

/-- The acceptance matrix of 45_sequencer.md R217, row by row; packets and records run in `S_RUN` (R211). -/
def accepted (cfg : Cfg) (i : Instr) (s : State) : Bool :=
  match i with
  | .reset => true
  | .encStart => decide (s.seq = .idle)
  | .writeBits _ n => decide (s.seq = .idle ∧ s.ph = .active ∧ n.toNat ≤ 32)
  | .encPut _ => decide (s.seq = .idle ∧ s.ph = .active)
  | .encFinish => decide (s.seq = .idle ∧ s.ph = .active)
  | .readByte => decide (s.seq = .idle)
  | .bbOffset => decide (s.seq = .idle)
  | .rxLoad n _ => decide (s.seq = .idle ∧ 1 ≤ n.toNat ∧ n.toNat ≤ cfg.rxcap)
  | .txPop => decide (s.seq = .idle ∨ s.seq = .fault)
  | .rdStatus => decide (s.seq = .idle ∨ s.seq = .fault)
  | .loginSeed _ _ _ _ _ | .accountLogin _ _ _ | .serverSelect _ | .postLogin _ _ _ | .ignored _ =>
    decide (s.seq = .run)
  | .serverList | .serverRedirect | .features | .charList => decide (s.seq = .run)

/-- The dispatch table (45_sequencer.md R214): the frames each packet class is answered with; a record instruction is its
own one frame. -/
def responsesOf (cfg : Cfg) : Instr → List Frame
  | .accountLogin _ _ _ | .serverList => [serverListRecord cfg]
  | .serverSelect _ | .serverRedirect => [serverRedirectRecord cfg]
  | .postLogin _ _ _ => [compress cfg cfg.featuresRaw, compress cfg cfg.charlistRaw]
  | .features => [compress cfg cfg.featuresRaw]
  | .charList => [compress cfg cfg.charlistRaw]
  | .loginSeed _ _ _ _ _ | .ignored _ => []
  | .reset | .encStart | .writeBits _ _ | .encPut _ | .encFinish | .readByte | .bbOffset | .rxLoad _ _ => []
  | .txPop | .rdStatus => []

/-- One step of an instance that stands still where a step stops, for statements about many steps. -/
def stepOrStay (s : State) : State :=
  match step s with
  | .next t => t
  | .fault _ => s
  | .refused _ => s

end Sys2Proof.Machine
end

