-- ==== Sys2Proof/Certificates/Slice0/Obligations.lean ====
section
/-! DEFINITION. The statements for the provers, from the numbered rules of spec/. Each docstring names the rule. -/

open Sys2Proof Sys2Proof.Machine

/-! ## Decoding and stepping -/

/-- 45_sequencer.md R218: a command the host issues is executed. The move is taken off the host's list first (the list is
the model's own, log entry 2). -/
def Obligations.StepRunsTheDecodedCommand : Prop :=
  ∀ (s : State) (w : CommandWord) (data : List Byte) (rest : List HostMove) (i : Instr),
    s.port = .issue w data :: rest → decodeCommand w data = .ok i → step s = exec i { s with port := rest }

/-- 45_sequencer.md R211: in `S_RUN`, while the host holds, the packet at `cur` is run. -/
def Obligations.StepRunsTheDecodedPacket : Prop :=
  ∀ (s : State) (i : Instr), s.seq = .run → s.cur ≠ s.nRx → decodePacket (rxRead s) s.cur s.nRx = .ok i →
    (s.port = [] → step s = exec i s) ∧
    (∀ rest, s.port = .hold :: rest → step s = exec i { s with port := rest })

/-- Words written out from 30_encoding.md R82 to R87, R93 and R94 (the command words are those of 95_test_vectors.md). The
last clause, a record told by its opcode, is the model's choice: the block never decodes a record (log entry 20). -/
def Obligations.SpecWordsDecode : Prop :=
  decode (.command 0x000000000000#48 []) = .ok .reset ∧
  decode (.command 0x2100FFFFFFF5#48 []) = .ok (.writeBits 0xFFFFFFF5#32 4#6) ∧
  decode (.command 0x284000000000#48 []) = .ok (.writeBits 0#32 33#6) ∧
  decode (.command 0x300000000061#48 []) = .ok (.encPut 0x61#8) ∧
  decode (.command 0x300000000141#48 []) = .error .mustBeZero ∧
  decode (.command 0x100000000001#48 []) = .error .mustBeZero ∧
  decode (.command 0xA00000000000#48 []) = .error .reservedCode ∧
  decode (.command 0x700000000003#48 [0xA0#8, 0x00#8, 0x02#8]) = .ok (.rxLoad 3#16 [0xA0#8, 0x00#8, 0x02#8]) ∧
  decode (.packet [0xA0#8, 0x12#8, 0x34#8]) = .ok (.serverSelect 0x1234#16) ∧
  decode (.packet [0xA0#8, 0xFF#8]) = .error (.short 0xA0#8) ∧
  decode (.packet [0xA8#8, 0xA0#8]) = .ok (.ignored 0xA8#8) ∧
  decode (.record [0xB9#8, 0x00#8, 0x03#8]) = .ok .features

/-- 30_encoding.md R83 to R90 and R93: every well-formed instruction, whatever its operands and the configuration, is
what the decoder reads from its encoding. That a record is told by its opcode and length, and that an ignored body is
written as zeros, is the model's choice (log entries 20 and 10). -/
def Obligations.DecodeOfEncodeIsTheInstruction : Prop :=
  ∀ (cfg : Cfg) (i : Instr), i.wf = true → decode (encode cfg i) = .ok i

/-- 30_encoding.md R93, R94: a command transaction that decodes is the encoding of what it decodes to, so no bit of an
accepted word is ignored. -/
def Obligations.EncodeOfDecodedCommandIsTheWord : Prop :=
  ∀ (cfg : Cfg) (w : CommandWord) (data : List Byte) (i : Instr),
    decodeCommand w data = .ok i → encode cfg i = .command w data

/-- 30_encoding.md R82, R93, R96: whatever decodes is well formed. -/
def Obligations.DecodedInstructionsAreWellFormed : Prop :=
  ∀ (e : Encoding) (i : Instr), decode e = .ok i → i.wf = true

/-- 30_encoding.md R94 (a), (b): reserved codes and non-zero must-be-zero bits are refused, whatever the data port
carries and whatever the state: nothing changes but the response (that a refusal is a step is the model's choice, log
entry 5). -/
def Obligations.BadCommandWordsAreRefused : Prop :=
  ∀ (s : State) (w : CommandWord) (data : List Byte) (rest : List HostMove), s.port = .issue w data :: rest →
    let f := commandFields w
    (10 ≤ f.code.toNat ∨ f.reserved ≠ 0#6 ∨ (f.code ≠ 2#4 ∧ f.n6 ≠ 0#6) ∨
      (f.code = 3#4 ∧ f.imm.extractLsb' 8 24 ≠ 0#24) ∨ (f.code = 7#4 ∧ f.imm.extractLsb' 16 16 ≠ 0#16) ∨
      (f.code ≠ 2#4 ∧ f.code ≠ 3#4 ∧ f.code ≠ 7#4 ∧ f.imm ≠ 0#32)) →
    step s = .next { s with port := rest, resp := some .refused }

/-- 30_encoding.md R82, R94 (e), (g): every opcode but the recognised four is IGNORED, the outbound opcodes among them;
there is no illegal inbound opcode. -/
def Obligations.EveryOtherOpcodeIsIgnored : Prop :=
  ∀ (rd : Nat → Option Byte) (cur lim : Nat) (op : Byte),
    rd cur = some op → op ∉ recognisedOpcodes → decodePacket rd cur lim = .ok (.ignored op)

/-! ## Bit Buffer -/

/-- 40_bitbuffer.md R113, the stream law: a write appends exactly its `n` bits, most significant first, and changes no
earlier bit; it completes `(pb + n) div 8` bytes behind those already in `q`; `pb'` is `(pb + n) mod 8`; the pending
value stays below `2^pb'`. -/
def Obligations.WriteAppendsExactlyItsBits : Prop :=
  ∀ (b : BitBuf) (value n : Nat),
    (wb b value n).stream = b.stream ++ codeBits value n ∧
    (∃ bs, (wb b value n).q = b.q ++ bs ∧ bs.length = (b.pb.toNat + n) / 8) ∧
    (wb b value n).pb.toNat = (b.pb.toNat + n) % 8 ∧
    (wb b value n).pv.toNat < 2 ^ (wb b value n).pb.toNat

/-- 40_bitbuffer.md R110 (a), (b), (d), (e): corner cases of a write of `n` bits ((c) is HighCodeBitsAreIgnored). -/
def Obligations.WriteBitsCornerCases : Prop :=
  ∀ (b : BitBuf) (value n : Nat), b.pv.toNat < 2 ^ b.pb.toNat →
    wb b value 0 = b ∧
    (b.pb.toNat = 7 → (wb b value 32).q.length = b.q.length + 4 ∧ (wb b value 32).pb = 7#3) ∧
    (b.pb.toNat + n < 8 → (wb b value n).q = b.q ∧ (wb b value n).pv.toNat = b.pv.toNat * 2 ^ n + value % 2 ^ n ∧
      (wb b value n).pb.toNat = b.pb.toNat + n) ∧
    ((b.pb.toNat + n) % 8 = 0 → (wb b value n).pb = 0#3 ∧ (wb b value n).pv = 0#7)

/-- 10_state.md R23: WRITE_BITS appends 0 to 4 bytes, ENC_PUT 0 to 2, ENC_FINISH 1 to 5, behind the bytes already in
`q`. -/
def Obligations.QueueGrowthIsBounded : Prop :=
  ∀ (cfg : Cfg) (b : BitBuf) (value n : Nat) (x : Byte), n ≤ 32 →
    (∃ bs, (wb b value n).q = b.q ++ bs ∧ bs.length ≤ 4) ∧
    (∃ bs, (putByte cfg b x).q = b.q ++ bs ∧ bs.length ≤ 2) ∧
    (∃ bs, (finishStream cfg b).q = b.q ++ bs ∧ 1 ≤ bs.length ∧ bs.length ≤ 5)

/-- 40_bitbuffer.md R110: WRITE_BITS, code `0x2`, its operands in `imm` and `n6`: where it is accepted the Bit Buffer is
`wb` of it and all else is unchanged; elsewhere it is refused. -/
def Obligations.WriteBitsCompletes : Prop :=
  ∀ (value : BitVec 32) (n : BitVec 6),
    decode (.command (0x2#4 ++ n ++ 0#6 ++ value) []) = .ok (.writeBits value n) ∧
    ∀ s : State,
      (s.seq = .idle → s.ph = .active → n.toNat ≤ 32 →
        exec (.writeBits value n) s =
          .next { s with bb := wb s.bb value.toNat n.toNat, resp := some (.ok .none) }) ∧
      (s.seq ≠ .idle ∨ s.ph ≠ .active ∨ 32 < n.toNat →
        exec (.writeBits value n) s = .next { s with resp := some .refused })

/-- 40_bitbuffer.md R114: beyond 32 bits a write has no meaning: refused in every state, nothing but the response
changes; the codes of `HTAB` and `TERM` never go beyond 32. -/
def Obligations.WritesBeyond32BitsAreRefused : Prop :=
  (∀ (value : BitVec 32) (n : BitVec 6) (s : State), 32 < n.toNat →
    exec (.writeBits value n) s = .next { s with resp := some .refused }) ∧
  (∀ (cfg : Cfg) (x : Byte), (cfg.htab x).len ≤ 16 ∧ cfg.term.len ≤ 32)

/-- 40_bitbuffer.md R111: READ_BYTE, code `0x5`: `none` on an empty queue, otherwise the front byte, removed; `pv` and
`pb` and everything else unchanged; refused outside `S_IDLE`. -/
def Obligations.ReadByteCompletes : Prop :=
  decode (.command 0x500000000000#48 []) = .ok .readByte ∧
  ∀ s : State,
    (s.seq = .idle → s.bb.q = [] → exec .readByte s = .next { s with resp := some (.ok (.byte none)) }) ∧
    (∀ b rest, s.seq = .idle → s.bb.q = b :: rest →
      exec .readByte s = .next { s with bb := { s.bb with q := rest }, resp := some (.ok (.byte (some b))) }) ∧
    (s.seq ≠ .idle → exec .readByte s = .next { s with resp := some .refused })

/-- 40_bitbuffer.md R112: BB_OFFSET, code `0x6`, answers `(8 - pb) mod 8` and changes nothing; refused outside
`S_IDLE`. -/
def Obligations.BbOffsetCompletes : Prop :=
  decode (.command 0x600000000000#48 []) = .ok .bbOffset ∧
  ∀ s : State,
    (s.seq = .idle → ∃ k : BitVec 3, k.toNat = (8 - s.bb.pb.toNat) % 8 ∧
      exec .bbOffset s = .next { s with resp := some (.ok (.offset k)) }) ∧
    (s.seq ≠ .idle → exec .bbOffset s = .next { s with resp := some .refused })

/-! ## Huffman Encoder -/

/-- 41_huffman_encoder.md R130: ENC_START, code `0x1`: `pv <- 0; pb <- 0; q <- []; ph <- E_ACTIVE`, in any phase; refused
outside `S_IDLE`. -/
def Obligations.EncStartCompletes : Prop :=
  decode (.command 0x100000000000#48 []) = .ok .encStart ∧
  ∀ s : State,
    (s.seq = .idle → exec .encStart s =
      .next { s with bb := { pv := 0#7, pb := 0#3, q := [] }, ph := .active, resp := some (.ok .none) }) ∧
    (s.seq ≠ .idle → exec .encStart s = .next { s with resp := some .refused })

/-- 41_huffman_encoder.md R131: ENC_PUT, code `0x3`, writes the byte's table code, for each of the 256 bytes; refused
outside `S_IDLE` or outside `E_ACTIVE`. -/
def Obligations.EncPutCompletes : Prop :=
  ∀ (x : Byte) (s : State),
    decode (.command (0x3000000000#40 ++ x) []) = .ok (.encPut x) ∧
    (s.seq = .idle → s.ph = .active → exec (.encPut x) s =
      .next { s with bb := wb s.bb (Config.cfg.htab x).code.toNat (Config.cfg.htab x).len, resp := some (.ok .none) }) ∧
    (s.seq ≠ .idle ∨ s.ph ≠ .active → exec (.encPut x) s = .next { s with resp := some .refused })

/-- 41_huffman_encoder.md R132: ENC_FINISH, code `0x4`: the terminal code, then zero bits to the boundary, which leaves
`pb = 0` and `pv = 0`; `ph <- E_DONE`; refused outside `S_IDLE` or outside `E_ACTIVE`. In `E_DONE` a second ENC_FINISH,
ENC_PUT and WRITE_BITS are refused, and READ_BYTE stays available. -/
def Obligations.EncFinishCompletes : Prop :=
  decode (.command 0x400000000000#48 []) = .ok .encFinish ∧
  ∀ s : State,
    (s.seq = .idle → s.ph = .active →
      ∃ b2 : BitBuf,
        (let b1 := wb s.bb Config.cfg.term.code.toNat Config.cfg.term.len
         b2 = wb b1 0 ((8 - b1.pb.toNat) % 8)) ∧
        b2.pb = 0#3 ∧ b2.pv = 0#7 ∧
        exec .encFinish s = .next { s with bb := b2, ph := .done, resp := some (.ok .none) }) ∧
    (s.seq ≠ .idle ∨ s.ph ≠ .active → exec .encFinish s = .next { s with resp := some .refused }) ∧
    (s.seq = .idle → s.ph = .done →
      (∀ b, exec (.encPut b) s = .next { s with resp := some .refused }) ∧
      (∀ v n, exec (.writeBits v n) s = .next { s with resp := some .refused }) ∧
      ∃ t b, exec .readByte s = .next t ∧ t.resp = some (.ok (.byte b)))

/-- 41_huffman_encoder.md R134 (which the spec marks as derived from R133 and R113): the output's bits are the codes of
the input in order, the terminal code once, and fewer than 8 zero bits up to a byte boundary, none where the code bits
already end on one; the output is never empty. -/
def Obligations.CompressedBitsAndLength : Prop :=
  ∀ (cfg : Cfg) (input : List Byte),
    let L := codeLength cfg input
    let P := (8 - L % 8) % 8
    bytesBits (compress cfg input) =
      input.flatMap (fun b => tableBits (cfg.htab b)) ++ termBits cfg.term ++ List.replicate P false ∧
    8 * (compress cfg input).length = L + P ∧ compress cfg input ≠ []

/-- 41_huffman_encoder.md R138: the empty message is the terminal code alone, zero padded to a byte boundary. -/
def Obligations.EmptyMessageIsTheTerminalCode : Prop :=
  ∀ cfg : Cfg,
    (∃ k, k < 8 ∧ bytesBits (compress cfg []) = termBits cfg.term ++ List.replicate k false) ∧
    (compress cfg []).length = (cfg.term.len + 7) / 8

/-- 30_encoding.md R97 (93_implementation_defined.md U15): a write uses `value mod 2^bit_count`, so bits of a code
above its length are ignored: two configurations whose codes agree on their low `len` bits compress alike. -/
def Obligations.HighCodeBitsAreIgnored : Prop :=
  (∀ (b : BitBuf) (value n : Nat), wb b value n = wb b (value % 2 ^ n) n) ∧
  ∀ (cfg cfg' : Cfg) (input : List Byte),
    (∀ b, (cfg.htab b).len = (cfg'.htab b).len ∧
      (cfg.htab b).code.toNat % 2 ^ (cfg.htab b).len = (cfg'.htab b).code.toNat % 2 ^ (cfg.htab b).len) →
    cfg.term.len = cfg'.term.len →
    cfg.term.code.toNat % 2 ^ cfg.term.len = cfg'.term.code.toNat % 2 ^ cfg.term.len →
    compress cfg input = compress cfg' input

/-- 41_huffman_encoder.md R135 (which the spec marks as derived from R111 and R113): streaming equals batch. From any
`S_IDLE` state, ENC_START, the ENC_PUTs of a message, ENC_FINISH, with READ_BYTEs and BB_OFFSETs anywhere after the
ENC_START, and a last READ_BYTE: every command completes; where that last one answers `none`, the bytes read are
`compress` of the bytes put; and it does answer `none` where at least as many READ_BYTEs follow the ENC_FINISH as the
output has bytes. -/
def Obligations.StreamingEqualsBatch : Prop :=
  ∀ (s : State) (pre post : List Instr), s.seq = .idle →
    (∀ i ∈ pre, isProbe i = true ∨ ∃ b, i = .encPut b) → (∀ i ∈ post, isProbe i = true) →
    ∃ t rs,
      runScript ([.encStart] ++ pre ++ [.encFinish] ++ post ++ [.readByte]) s = some (t, rs) ∧
      (rs.getLast? = some (.ok (.byte none)) → bytesRead rs = compress Config.cfg (bytesPut pre)) ∧
      ((compress Config.cfg (bytesPut pre)).length ≤ (post.filter fun i => decide (i = .readByte)).length →
        rs.getLast? = some (.ok (.byte none)))

/-- 41_huffman_encoder.md R137 (which the spec marks as derived from R133, R134 and R6 (e)): under the prefix property,
decoding what was compressed gives the input back, and behind the terminal code stand fewer than 8 bits, all zero. The
reference decoder is the spec's, no part of the hardware. -/
def Obligations.CompressionRoundTrip : Prop :=
  ∀ (cfg : Cfg) (input : List Byte), PrefixCode cfg →
    refDecode cfg (compress cfg input) = some input ∧
    ∃ k, k < 8 ∧ bytesBits (compress cfg input) =
      input.flatMap (fun b => tableBits (cfg.htab b)) ++ termBits cfg.term ++ List.replicate k false

/-! ## Field codec -/

/-- 42_field_codec.md R151 to R153, 20_memory.md R55: fields are big-endian and unsigned, the cursor moves by exactly the
width, at any offset. -/
def Obligations.FieldReadsAreBigEndian : Prop :=
  ∀ (rd : Nat → Option Byte) (c lim : Nat) (b0 b1 b2 b3 : Byte), rd c = some b0 →
    (c + 1 ≤ lim → rdU8 rd { c := c, lim := lim } = .ok b0 { c := c + 1, lim := lim }) ∧
    (c + 2 ≤ lim → rd (c + 1) = some b1 → ∃ v : BitVec 16, v.toNat = b0.toNat * 256 + b1.toNat ∧
      rdU16 rd { c := c, lim := lim } = .ok v { c := c + 2, lim := lim }) ∧
    (c + 4 ≤ lim → rd (c + 1) = some b1 → rd (c + 2) = some b2 → rd (c + 3) = some b3 →
      ∃ v : BitVec 32, v.toNat = b0.toNat * 2 ^ 24 + b1.toNat * 2 ^ 16 + b2.toNat * 2 ^ 8 + b3.toNat ∧
        rdU32 rd { c := c, lim := lim } = .ok v { c := c + 4, lim := lim })

/-- 42_field_codec.md R150: where fewer bytes remain than an integer field needs, the read fails with IncompleteBuffer at
the cursor, whatever the bytes are: none is read. -/
def Obligations.FieldReadsCheckBeforeReading : Prop :=
  ∀ (rd : Nat → Option Byte) (x : Ctx),
    (x.lim - x.c < 1 → rdU8 rd x = .raise .incompleteBuffer x.c) ∧
    (x.lim - x.c < 2 → rdU16 rd x = .raise .incompleteBuffer x.c) ∧
    (x.lim - x.c < 4 → rdU32 rd x = .raise .incompleteBuffer x.c)

/-- 42_field_codec.md R154: RD_STR fails with IncompleteBuffer where fewer than 30 bytes remain, before their validity is
looked at; otherwise it checks all 30 raw bytes, then trims; the cursor moves by 30 whatever the trimmed length; invalid
text names the field's first byte. -/
def Obligations.StringReadsValidateThenTrim : Prop :=
  ∀ (check : TextCheck) (rd : Nat → Option Byte) (c lim : Nat),
    (lim - c < 30 → rdStr check rd { c := c, lim := lim } = .raise .incompleteBuffer c) ∧
    ∀ raw : List Byte, raw.length = 30 → c + 30 ≤ lim → (∀ k, k < 30 → rd (c + k) = raw[k]?) →
      (validText check raw = true →
        rdStr check rd { c := c, lim := lim } = .ok (trim raw) { c := c + 30, lim := lim }) ∧
      (validText check raw = false → rdStr check rd { c := c, lim := lim } = .raise .invalidUtf8 c)

/-- 42_field_codec.md R155 (its table is the spec's own, "[from general knowledge, not in source]", log entry 14): under
`utf8` a field is valid exactly when its bytes can be cut, with nothing left over, into
pieces each of which matches a row of the table; under `ascii`, when every byte is at most `0x7F`; and what passes under
`ascii` passes under `utf8`. -/
def Obligations.ValidTextIsTheTableOfPieces : Prop :=
  ∀ raw : List Byte,
    (validText .utf8 raw = true ↔
      ∃ pieces : List (List Byte), raw = pieces.flatten ∧
        ∀ p ∈ pieces, ∃ row ∈ utf8Rows, List.Forall₂ (fun (r : Nat × Nat) (b : Byte) => r.1 ≤ b.toNat ∧ b.toNat ≤ r.2) row p) ∧
    (validText .ascii raw = true ↔ ∀ b ∈ raw, b.toNat ≤ 0x7F) ∧
    (validText .ascii raw = true → validText .utf8 raw = true)

/-- 42_field_codec.md R156: `trim` is the longest prefix whose last byte is not `0x00`. -/
def Obligations.TrimIsTheLongestUnpaddedBeginning : Prop :=
  ∀ raw : List Byte,
    trim raw <+: raw ∧ (trim raw).getLast? ≠ some 0#8 ∧
    ∀ p : List Byte, p <+: raw → p.getLast? ≠ some 0#8 → p.length ≤ (trim raw).length

/-! ## Inbound packets -/

/-- 43_packets_inbound.md R170: LOGIN_SEED reports its five values, sends nothing, and advances `cur` by 21; where
fewer than 20 bytes follow the opcode it raises IncompleteBuffer. -/
def Obligations.LoginSeedCompletes : Prop :=
  ∀ (seed major minor revision patch : BitVec 32) (s : State), s.seq = .run →
    (s.cur + 21 ≤ s.nRx →
      exec (.loginSeed seed major minor revision patch) s =
        .next { s with trace := s.trace ++ [.loginSeed seed major minor revision patch], cur := s.cur + 21 }) ∧
    (s.nRx < s.cur + 21 →
      exec (.loginSeed seed major minor revision patch) s = .next { s with cause := 1#3, seq := .fault })

/-- 43_packets_inbound.md R171: ACCOUNT_LOGIN with two valid strings, whatever they are, reports them trimmed with the
tail byte, sends one server list, and advances `cur` by 62. It raises IncompleteBuffer where fewer than 61 bytes follow
the opcode, and otherwise InvalidUtf8 where a string is not valid text. -/
def Obligations.AccountLoginCompletes : Prop :=
  ∀ (username password : List Byte) (tail : Byte) (s : State), s.seq = .run →
    (s.cur + 62 ≤ s.nRx → validText Config.cfg.textCheck username = true →
      validText Config.cfg.textCheck password = true →
      exec (.accountLogin username password tail) s =
        .next { s with
          trace := s.trace ++ [.accountLogin (trim username) (trim password) tail]
          txq := s.txq ++ [serverListRecord Config.cfg]
          cur := s.cur + 62 }) ∧
    (s.nRx < s.cur + 62 →
      exec (.accountLogin username password tail) s = .next { s with cause := 1#3, seq := .fault }) ∧
    (s.cur + 62 ≤ s.nRx →
      validText Config.cfg.textCheck username = false ∨ validText Config.cfg.textCheck password = false →
      exec (.accountLogin username password tail) s = .next { s with cause := 2#3, seq := .fault })

/-- 43_packets_inbound.md R172: SERVER_SELECT reports its index, which nothing checks, sends one redirect, and advances
`cur` by 3; where fewer than 2 bytes follow the opcode it raises IncompleteBuffer. -/
def Obligations.ServerSelectCompletes : Prop :=
  ∀ (index : BitVec 16) (s : State), s.seq = .run →
    (s.cur + 3 ≤ s.nRx →
      exec (.serverSelect index) s =
        .next { s with
          trace := s.trace ++ [.serverSelect index]
          txq := s.txq ++ [serverRedirectRecord Config.cfg]
          cur := s.cur + 3 }) ∧
    (s.nRx < s.cur + 3 → exec (.serverSelect index) s = .next { s with cause := 1#3, seq := .fault })

/-- 43_packets_inbound.md R173: POST_LOGIN with two valid strings reports key and strings, sends the compressed features
record, then the compressed character list, each a frame of its own, and advances `cur` by 65. It raises
IncompleteBuffer where fewer than 64 bytes follow the opcode, and otherwise InvalidUtf8 where a string is not valid
text. -/
def Obligations.PostLoginCompletes : Prop :=
  ∀ (key : BitVec 32) (str0 str1 : List Byte) (s : State), s.seq = .run →
    (s.cur + 65 ≤ s.nRx → validText Config.cfg.textCheck str0 = true → validText Config.cfg.textCheck str1 = true →
      exec (.postLogin key str0 str1) s =
        .next { s with
          trace := s.trace ++ [.postLogin key (trim str0) (trim str1)]
          txq := s.txq ++ [compress Config.cfg Config.cfg.featuresRaw, compress Config.cfg Config.cfg.charlistRaw]
          cur := s.cur + 65 }) ∧
    (s.nRx < s.cur + 65 → exec (.postLogin key str0 str1) s = .next { s with cause := 1#3, seq := .fault }) ∧
    (s.cur + 65 ≤ s.nRx →
      validText Config.cfg.textCheck str0 = false ∨ validText Config.cfg.textCheck str1 = false →
      exec (.postLogin key str0 str1) s = .next { s with cause := 2#3, seq := .fault })

/-- 43_packets_inbound.md R174, 60_exceptions.md R233: IGNORED sets `unk`, reports opcode and offset, sends nothing, and
advances `cur` by `1 + IGN_LEN(op)`; a non-zero `IGN_LEN(op)` that does not fit raises IncompleteBuffer, and then neither
`unk` nor the event is produced. -/
def Obligations.IgnoredCompletes : Prop :=
  ∀ (op : Byte) (s : State), s.seq = .run →
    (s.cur + 1 + Config.cfg.ignLen op ≤ s.nRx →
      exec (.ignored op) s =
        .next { s with
          trace := s.trace ++ [.unknown op s.cur]
          unk := true
          cur := s.cur + 1 + Config.cfg.ignLen op }) ∧
    (s.nRx < s.cur + 1 + Config.cfg.ignLen op →
      exec (.ignored op) s = .next { s with cause := 1#3, seq := .fault })

/-- 60_exceptions.md R239: fault entry writes `cause` (1 or 2) and `seq` and nothing else, the tentative effects of the
step dropped; outside a sequencer step no fault is taken: no host command enters `S_FAULT`. The sequencer steps while
the host holds, and a hold is taken off the host's moves (the model's own field, log entry 2). -/
def Obligations.FaultEntryWritesCauseAndSeqAlone : Prop :=
  (∀ s t : State, s.seq = .run → hostHolds s.port = true → step s = .next t → t.seq = .fault →
    t = { s with cause := t.cause, seq := .fault, port := s.port.tail } ∧ (t.cause = 1#3 ∨ t.cause = 2#3)) ∧
  (∀ (i : Instr) (s t : State), layer i = .command → exec i s = .next t → t.seq = .fault → s.seq = .fault)

/-- 60_exceptions.md R231, R238, R239: a packet that does not fit before the end of the buffer faults before any of its
body is looked at: `cause = 1`, `S_FAULT`, everything else as before, `cur` at the opcode. A hold is taken off the host's
moves (the model's own field, log entry 2). -/
def Obligations.CutPacketsFault : Prop :=
  ∀ (s : State) (op : Byte), s.seq = .run → hostHolds s.port = true → s.cur < s.nRx →
    rxRead s s.cur = some op → s.nRx - s.cur - 1 < bodyLen Config.cfg op →
    step s = .next { s with cause := 1#3, seq := .fault, port := s.port.tail }

/-- 45_sequencer.md R211, 43_packets_inbound.md R170 to R174, 60_exceptions.md R239: in every sound state, while the host
holds, the sequencer's step is the spec's pseudocode, field by field, a hold taken off the host's moves (the model's own
field, log entry 2). -/
def Obligations.SequencerStepIsTheSpecsPseudocode : Prop :=
  ∀ s : State, s.Inv → s.seq = .run → hostHolds s.port = true →
    step s = refSequencerStep Config.cfg { s with port := s.port.tail }

/-- 45_sequencer.md R212: at `cur = n_rx` the pass ends: `seq <- S_IDLE`, nothing else changes, but for the hold taken off
the host's moves (the model's own field, log entry 2). -/
def Obligations.EndOfPass : Prop :=
  ∀ s : State, s.seq = .run → s.cur = s.nRx → hostHolds s.port = true →
    step s = .next { s with seq := .idle, port := s.port.tail }

/-- 43_packets_inbound.md, 44_packets_outbound.md: what packets and records leave unchanged: the Bit Buffer and the phase
(the compressions run on scratch buffers, R192), `rx` byte by byte, `n_rx`, the response port and the host's moves;
earlier frames and events stay in front; records leave everything but `txq`; `unk` is written by IGNORED alone and
`cause` by a fault alone. That the response stays on its port is the model's choice (log entry 19), and the host's moves
are the model's own field (log entry 2). -/
def Obligations.PacketAndRecordFrame : Prop :=
  ∀ (i : Instr) (s t : State), layer i ≠ .command → exec i s = .next t →
    t.bb = s.bb ∧ t.ph = s.ph ∧ t.nRx = s.nRx ∧ t.resp = s.resp ∧ t.port = s.port ∧
    (∀ a, memGet t.rx a = memGet s.rx a) ∧ s.txq <+: t.txq ∧ s.trace <+: t.trace ∧
    (layer i = .record → t.cur = s.cur ∧ t.seq = s.seq ∧ t.trace = s.trace) ∧
    ((∀ op, i ≠ .ignored op) → t.unk = s.unk) ∧
    (t.seq ≠ .fault → t.cause = s.cause) ∧
    (t.seq = .fault → t.cur = s.cur ∧ t.txq = s.txq ∧ t.trace = s.trace ∧ t.unk = s.unk)

/-- 45_sequencer.md R213 (which the spec marks as derived from R211 and R212), 70_reset_and_hazards.md R264: no step of a
pass is without progress: it leaves `S_RUN`, or moves the cursor forward within the buffer. The sequencer steps while the
host holds, and a hold is taken off the host's moves (the model's own field, log entry 2). -/
def Obligations.EveryRunStepMakesProgress : Prop :=
  ∀ s : State, s.Inv → s.seq = .run → hostHolds s.port = true →
    ∃ t, step s = .next t ∧ t.port = s.port.tail ∧
      (t.seq ≠ .run ∨ (s.cur < t.cur ∧ t.cur ≤ t.nRx ∧ t.nRx = s.nRx))

/-- 45_sequencer.md R213 (which the spec marks as derived from R211 and R212): a pass ends after at most as many steps as
bytes remain, and one, where the host holds that long; what it does afterwards is open. Each step takes a hold off the
host's moves (the model's own field, log entry 2). -/
def Obligations.EveryPassEnds : Prop :=
  ∀ s : State, s.Inv → s.seq = .run → (∀ m ∈ s.port.take (s.nRx - s.cur + 1), m = .hold) →
    ∃ k t, k ≤ s.nRx - s.cur + 1 ∧ core.run k s = .next t ∧ State.seq t ≠ .run ∧ State.port t = s.port.drop k

/-- 45_sequencer.md R214: a packet that decodes without fault pushes exactly its row of the dispatch table, in order,
and no other state influences the choice. -/
def Obligations.ResponsesFollowTheDispatchTable : Prop :=
  ∀ (i : Instr) (s t : State), layer i = .packet → exec i s = .next t → t.seq = .run →
    t.txq = s.txq ++ responsesOf Config.cfg i

/-! ## Outbound records -/

/-- 44_packets_outbound.md R190, 30_encoding.md R88: the 46 bytes of the server list, whatever the configuration. Its
offsets are the spec's own ("the offsets other than 0 are this spec's own", log entry 14). -/
def Obligations.ServerListLayout : Prop :=
  ∀ cfg : Cfg,
    serverListRecord cfg =
      [0xA8#8, 0x00#8, 0x2E#8, cfg.listFlags, 0x00#8, 0x01#8] ++
      [BitVec.ofNat 8 (cfg.shardIndex.toNat / 256), BitVec.ofNat 8 (cfg.shardIndex.toNat % 256)] ++
      cfg.shardName.toList ++ List.replicate 24 0x00#8 ++ [cfg.shardStatus, cfg.shardTz] ++ cfg.shardAddr.toList ∧
    (serverListRecord cfg).length = 46

/-- 30_encoding.md R89, 44_packets_outbound.md R191: the 11 bytes of the redirect, whatever the configuration. -/
def Obligations.ServerRedirectLayout : Prop :=
  ∀ cfg : Cfg,
    serverRedirectRecord cfg =
      [0x8C#8] ++ cfg.redirAddr.toList ++
      [BitVec.ofNat 8 (cfg.redirPort.toNat / 256), BitVec.ofNat 8 (cfg.redirPort.toNat % 256)] ++
      [BitVec.ofNat 8 (cfg.redirKey.toNat / 2 ^ 24), BitVec.ofNat 8 (cfg.redirKey.toNat / 2 ^ 16),
        BitVec.ofNat 8 (cfg.redirKey.toNat / 2 ^ 8), BitVec.ofNat 8 cfg.redirKey.toNat] ∧
    (serverRedirectRecord cfg).length = 11

/-- 44_packets_outbound.md R190 to R194: while the sequencer runs, each record appends one non-empty frame to `txq`, raw
or compressed, and changes nothing else. -/
def Obligations.RecordsAreEnqueuedWhole : Prop :=
  ∀ s : State, s.seq = .run →
    exec .serverList s = .next { s with txq := s.txq ++ [serverListRecord Config.cfg] } ∧
    exec .serverRedirect s = .next { s with txq := s.txq ++ [serverRedirectRecord Config.cfg] } ∧
    exec .features s = .next { s with txq := s.txq ++ [compress Config.cfg Config.cfg.featuresRaw] } ∧
    exec .charList s = .next { s with txq := s.txq ++ [compress Config.cfg Config.cfg.charlistRaw] } ∧
    serverListRecord Config.cfg ≠ [] ∧ serverRedirectRecord Config.cfg ≠ [] ∧
    compress Config.cfg Config.cfg.featuresRaw ≠ [] ∧ compress Config.cfg Config.cfg.charlistRaw ≠ []

/-! ## Host commands -/

/-- 45_sequencer.md R210: RX_LOAD, code `0x7`, of `n` bytes, `1 ≤ n ≤ RXCAP`, in `S_IDLE`: byte `k` of the data stands
at `rx[k]`, no byte at or beyond `n` holds a value, `n_rx = n`, `cur = 0`, `S_RUN`; everything else as before. Refused
outside `S_IDLE`, for `n = 0`, and for `n > RXCAP`. -/
def Obligations.RxLoadCompletes : Prop :=
  ∀ (n : BitVec 16) (data : List Byte) (s : State), data.length = n.toNat →
    decode (.command (0x70000000#32 ++ n) data) = .ok (.rxLoad n data) ∧
    (s.seq = .idle → 1 ≤ n.toNat → n.toNat ≤ Config.cfg.rxcap →
      ∃ m : List Host.Cell, (∀ a, memGet m a = data[a]?) ∧ memWf m = true ∧
        exec (.rxLoad n data) s =
          .next { s with rx := m, nRx := n.toNat, cur := 0, seq := .run, resp := some (.ok .none) }) ∧
    (s.seq ≠ .idle ∨ n.toNat = 0 ∨ Config.cfg.rxcap < n.toNat →
      exec (.rxLoad n data) s = .next { s with resp := some .refused })

/-- 45_sequencer.md R215: TX_POP, code `0x8`: `valid = 0` on an empty queue, otherwise the front frame whole, removed;
everything else unchanged; accepted in `S_IDLE` and `S_FAULT`, refused in `S_RUN`. -/
def Obligations.TxPopCompletes : Prop :=
  decode (.command 0x800000000000#48 []) = .ok .txPop ∧
  ∀ s : State,
    (s.seq = .idle ∨ s.seq = .fault → s.txq = [] →
      exec .txPop s = .next { s with resp := some (.ok (.frame none)) }) ∧
    (∀ f rest, s.seq = .idle ∨ s.seq = .fault → s.txq = f :: rest →
      exec .txPop s = .next { s with txq := rest, resp := some (.ok (.frame (some f))) }) ∧
    (s.seq = .run → exec .txPop s = .next { s with resp := some .refused })

/-- 45_sequencer.md R216, 10_state.md R38: RESET, code `0x0`, in every state: every item of R20 at its reset value, the
event trace empty. The host's coming moves stay and the response is OK (the model's own fields, log entries 2, 4 and
19). -/
def Obligations.ResetCompletes : Prop :=
  decode (.command 0x000000000000#48 []) = .ok .reset ∧
  ∀ s : State, exec .reset s =
    .next
      { bb := { pv := 0#7, pb := 0#3, q := [] }, ph := .idle, rx := [], nRx := 0, cur := 0, seq := .idle, cause := 0#3,
        unk := false, txq := [], trace := [], resp := some (.ok .none), port := s.port }

/-- 45_sequencer.md R220, 10_state.md R33: RD_STATUS, code `0x9`, answers the STATUS view, each field in its place, and
changes nothing; accepted in `S_IDLE` and `S_FAULT`, refused in `S_RUN`. -/
def Obligations.RdStatusCompletes : Prop :=
  decode (.command 0x900000000000#48 []) = .ok .rdStatus ∧
  ∀ s : State,
    (s.seq = .idle ∨ s.seq = .fault → ∃ w : BitVec 32,
      w.extractLsb' 0 2 = seqCode s.seq ∧ w.extractLsb' 2 2 = phaseCode s.ph ∧ w.extractLsb' 4 3 = s.cause ∧
      w.getLsbD 7 = s.unk ∧ w.getLsbD 8 = decide (s.bb.q ≠ []) ∧ w.getLsbD 9 = decide (s.txq ≠ []) ∧
      w.extractLsb' 10 6 = 0#6 ∧ (s.cur < 65536 → (w.extractLsb' 16 16).toNat = s.cur) ∧
      exec .rdStatus s = .next { s with resp := some (.ok (.status w)) }) ∧
    (s.seq = .run → exec .rdStatus s = .next { s with resp := some .refused })

/-- 45_sequencer.md R217: the acceptance matrix. A command that the matrix accepts completes with the response OK; any
other is refused, and a refusal changes nothing but the response. -/
def Obligations.AcceptanceMatrixDecides : Prop :=
  ∀ (i : Instr) (s : State), layer i = .command → i.wf = true →
    if accepted Config.cfg i s then ∃ t r, exec i s = .next t ∧ t.resp = some (.ok r)
    else exec i s = .next { s with resp := some .refused }

/-- 10_state.md R20 to R30: what the commands other than RESET and RX_LOAD leave unchanged: `rx` byte by byte, `n_rx`,
`cur`, `seq`, `cause`, `unk`, the trace and the host's moves, always; `txq` unless TX_POP; the phase unless ENC_START or
ENC_FINISH; `pv` and `pb` unless a command that writes the stream; the Bit Buffer in BB_OFFSET, TX_POP and RD_STATUS. -/
def Obligations.CommandFrame : Prop :=
  ∀ (i : Instr) (s t : State), layer i = .command → i ≠ .reset → (∀ n data, i ≠ .rxLoad n data) → exec i s = .next t →
    (∀ a, memGet t.rx a = memGet s.rx a) ∧ t.nRx = s.nRx ∧ t.cur = s.cur ∧ t.seq = s.seq ∧ t.cause = s.cause ∧
    t.unk = s.unk ∧ t.trace = s.trace ∧ t.port = s.port ∧
    (i ≠ .txPop → t.txq = s.txq) ∧
    (i ≠ .encStart → i ≠ .encFinish → t.ph = s.ph) ∧
    (i = .readByte → t.bb.pv = s.bb.pv ∧ t.bb.pb = s.bb.pb) ∧
    (i = .bbOffset ∨ i = .txPop ∨ i = .rdStatus → t.bb = s.bb)

/-- 60_exceptions.md R240, R245, 45_sequencer.md R211: while the host holds, an instance that is not in `S_RUN` waits.
That waiting is a step to the same state, but for the hold taken off the host's moves, is the model's choice (log entry
2). -/
def Obligations.IdleInstancesWait : Prop :=
  ∀ s : State, s.seq ≠ .run → hostHolds s.port = true → step s = .next { s with port := s.port.tail }

/-! ## Whole machine -/

/-- 10_state.md R38: the reset values. -/
def Obligations.ResetValues : Prop :=
  State.reset.bb.pb = 0#3 ∧ State.reset.bb.pv = 0#7 ∧ State.reset.bb.q = [] ∧ State.reset.ph = .idle ∧
  (∀ a, memGet State.reset.rx a = none) ∧ State.reset.nRx = 0 ∧ State.reset.cur = 0 ∧ State.reset.seq = .idle ∧
  State.reset.cause = 0#3 ∧ State.reset.unk = false ∧ State.reset.txq = [] ∧ State.reset.trace = []

/-- 10_state.md R39 (which the spec marks as derived): the invariants hold at reset. -/
def Obligations.InvariantsHoldAtReset : Prop := State.reset.Inv

/-- 10_state.md R39 (which the spec marks as derived): every step keeps the invariants, from every state that meets
them, whatever the host does. -/
def Obligations.EveryStepKeepsTheInvariants : Prop :=
  ∀ s t : State, s.Inv → step s = .next t → t.Inv

/-- 10_state.md R25, 20_memory.md R59: `rx` stays in its canonical form, and exactly the addresses below `n_rx` hold a
value. -/
def Obligations.SoundReceiveBuffer : Prop :=
  ∀ s : State, s.Inv → memWf s.rx = true ∧ ∀ a, (memGet s.rx a).isSome = true ↔ a < s.nRx

/-- 45_sequencer.md R217, R218, 41_huffman_encoder.md R136, 20_memory.md R59: from a sound state, with sound host
transactions, a step never stops: it answers a next state, whose coming transactions are sound again. -/
def Obligations.SoundStepsNeverStop : Prop :=
  ∀ s : State, s.Inv → s.PortSound → ∃ t, step s = .next t ∧ t.PortSound

/-- 60_exceptions.md R240, 10_state.md R27, R28: `S_FAULT` is left by RESET alone, and until then `cause`, `cur` and `rx`
stay as fault entry left them. -/
def Obligations.OnlyResetLeavesTheFaultState : Prop :=
  ∀ s t : State, s.seq = .fault → step s = .next t →
    (t.seq = .fault ∧ t.cause = s.cause ∧ t.cur = s.cur ∧ t.nRx = s.nRx ∧ t.rx = s.rx) ∨
    (∃ w data rest, s.port = .issue w data :: rest ∧ decodeCommand w data = .ok .reset ∧
      t = { State.reset with port := rest, resp := some (.ok .none) })

/-- 20_memory.md R65, 70_reset_and_hazards.md R267: `rx` does not change during a pass, except by RESET. -/
def Obligations.ReceiveBufferIsFrozenDuringAPass : Prop :=
  ∀ s t : State, s.seq = .run → step s = .next t →
    ((∀ a, memGet t.rx a = memGet s.rx a) ∧ t.nRx = s.nRx) ∨
    (∃ w data rest, s.port = .issue w data :: rest ∧ decodeCommand w data = .ok .reset)

/-- 60_exceptions.md R244, R247, 20_memory.md R63: under any schedule an instance goes through its own steps alone:
what it becomes depends on its own state and on how often it was scheduled, on no other instance. -/
def Obligations.InstancesAreIsolated : Prop :=
  ∀ (ks : List Nat) (sys : System) (j : Nat),
    (runSchedule ks sys).insts[j]? = sys.insts[j]?.map (stepOrStay^[ks.count j])
end

