-- ==== Sys2Proof/Laws/Operands.lean ====
section
/-! SUPPORT. Small laws of the operand forms and field reads (Machine/Operands.lean). -/

namespace Sys2Proof.Machine

/-! ## Big-endian values -/

@[simp] theorem be_nil : be [] = 0 := rfl

@[simp] theorem be_concat (s : List Byte) (b : Byte) : be (s ++ [b]) = be s * 256 + b.toNat := by
  simp [be, List.foldl_append]

@[simp] theorem beBytes_length (v n : Nat) : (beBytes v n).length = n := by
  induction n generalizing v with
  | zero => rfl
  | succ n ih => simp [beBytes, ih]

/-- Reading back what `be_bytes` wrote gives the value, kept to the width. -/
theorem be_beBytes (v n : Nat) : be (beBytes v n) = v % 256 ^ n := by
  induction n generalizing v with
  | zero => simp [beBytes, Nat.mod_one]
  | succ n ih =>
    have hmul : v % 256 ^ (n + 1) = v % 256 + 256 * (v / 256 % 256 ^ n) := by
      rw [show 256 ^ (n + 1) = 256 * 256 ^ n by rw [pow_succ, Nat.mul_comm], Nat.mod_mul]
    have hb : v % 256 % 2 ^ 8 = v % 256 := Nat.mod_eq_of_lt (Nat.mod_lt _ (by decide))
    rw [beBytes, be_concat, ih, BitVec.toNat_ofNat, hb, hmul]
    omega

theorem be_beBytes_of_lt {v n : Nat} (h : v < 256 ^ n) : be (beBytes v n) = v := by
  rw [be_beBytes, Nat.mod_eq_of_lt h]

/-! ## Memory reads -/

/-- A read succeeds with the bytes that stand there, and only with them. -/
theorem memRead_ok_iff (rd : Nat → Option Byte) (a n : Nat) (bs : List Byte) :
    memRead rd a n = .ok bs ↔ bs.length = n ∧ ∀ k, k < n → rd (a + k) = bs[k]? := by
  induction n generalizing a bs with
  | zero => cases bs <;> simp [memRead]
  | succ n ih =>
    cases bs with
    | nil =>
      simp only [memRead]
      split
      · simp
      · split <;> simp
    | cons b bs =>
      have hsplit : (∀ k, k < n + 1 → rd (a + k) = (b :: bs)[k]?) ↔
          rd a = some b ∧ ∀ k, k < n → rd (a + 1 + k) = bs[k]? := by
        constructor
        · intro h
          refine ⟨by simpa using h 0 (by omega), fun k hk => ?_⟩
          have := h (k + 1) (by omega)
          simpa [Nat.add_assoc, Nat.add_comm 1 k] using this
        · rintro ⟨h0, h⟩ k hk
          cases k with
          | zero => simpa using h0
          | succ k => simpa [Nat.add_assoc, Nat.add_comm 1 k] using h k (by omega)
      rw [hsplit]
      simp only [memRead, List.length_cons, Nat.add_right_cancel_iff]
      cases hr : rd a with
      | none => simp
      | some b' =>
        cases hm : memRead rd (a + 1) n with
        | error e =>
          have := ih (a + 1) bs
          simp only [hm, reduceCtorEq, false_iff] at this ⊢
          rintro ⟨hl, -, h⟩
          exact this ⟨hl, h⟩
        | ok bs' =>
          have := ih (a + 1) bs
          simp only [hm, Except.ok.injEq] at this
          simp only [Except.ok.injEq, List.cons.injEq, Option.some.injEq, this]
          tauto

/-- A read that fails names an address that holds no value. -/
theorem memRead_error {rd : Nat → Option Byte} {a n e : Nat} (h : memRead rd a n = .error e) :
    rd e = none ∧ a ≤ e ∧ e < a + n := by
  induction n generalizing a with
  | zero => simp [memRead] at h
  | succ n ih =>
    simp only [memRead] at h
    split at h
    · cases h; exact ⟨‹_›, by omega, by omega⟩
    · split at h
      · cases h
      · cases h
        obtain ⟨h1, h2, h3⟩ := ih ‹_›
        exact ⟨h1, by omega, by omega⟩

/-! ## Field reads -/

/-- The three ways of a field read: too few bytes left, a byte without a value, or the bytes with the cursor moved by the
width (42_field_codec.md R150). -/
theorem rdField_cases (rd : Nat → Option Byte) (x : Ctx) (w : Nat) :
    (x.lim - x.c < w ∧ rdField rd x w = .raise .incompleteBuffer x.c) ∨
    (w ≤ x.lim - x.c ∧ ∃ a, rd a = none ∧ x.c ≤ a ∧ a < x.c + w ∧ rdField rd x w = .noValue a) ∨
    (w ≤ x.lim - x.c ∧ ∃ bs, memRead rd x.c w = .ok bs ∧ rdField rd x w = .ok bs { c := x.c + w, lim := x.lim }) := by
  unfold rdField
  split
  · exact .inl ⟨‹_›, rfl⟩
  · cases hm : memRead rd x.c w with
    | error a =>
      obtain ⟨h1, h2, h3⟩ := memRead_error hm
      exact .inr (.inl ⟨by omega, a, h1, h2, h3, rfl⟩)
    | ok bs => exact .inr (.inr ⟨by omega, bs, rfl, rfl⟩)

theorem rdField_ok {rd : Nat → Option Byte} {x : Ctx} {w : Nat} {bs : List Byte} (h : w ≤ x.lim - x.c)
    (hm : memRead rd x.c w = .ok bs) : rdField rd x w = .ok bs { c := x.c + w, lim := x.lim } := by
  simp [rdField, Nat.not_lt.mpr h, hm]

@[simp] theorem andThen_ok {α β : Type} (v : α) (x : Ctx) (k : α → Ctx → Read β) : (Read.ok v x).andThen k = k v x := rfl

@[simp] theorem andThen_raise {α β : Type} (f : FatalFault) (info : Nat) (k : α → Ctx → Read β) :
    (Read.raise f info : Read α).andThen k = .raise f info := rfl

@[simp] theorem andThen_noValue {α β : Type} (a : Nat) (k : α → Ctx → Read β) :
    (Read.noValue a : Read α).andThen k = .noValue a := rfl

/-! ## Text -/

/-- An ASCII byte is a piece of its own. -/
theorem utf8Pieces_ascii (bs : List Byte) (h : validAscii bs = true) (fuel : Nat) (hf : bs.length ≤ fuel) :
    utf8Pieces fuel bs = true := by
  induction bs generalizing fuel with
  | nil => cases fuel <;> rfl
  | cons b bs ih =>
    cases fuel with
    | zero => simp at hf
    | succ fuel =>
      simp only [validAscii, List.all_cons, Bool.and_eq_true, decide_eq_true_eq] at h
      have := ih h.2 fuel (by simpa using hf)
      simp [utf8Pieces, utf8Rows, stripRow, h.1, this]

/-- Under `ascii`, `valid_text` is the ASCII check (42_field_codec.md R155). -/
theorem validText_ascii (raw : List Byte) : validText .ascii raw = validAscii raw := by
  simp only [validText]; split <;> simp_all

/-- Under `utf8`, `valid_text` is the UTF-8 check (42_field_codec.md R155). -/
theorem validText_utf8 (raw : List Byte) : validText .utf8 raw = validUtf8 raw := by
  simp only [validText]
  split
  · exact (utf8Pieces_ascii raw ‹_› _ (Nat.le_refl _)).symm
  · rfl

theorem textOf_eq_some {check : TextCheck} {raw : List Byte} (h : validText check raw = true) :
    textOf check raw = some (trim raw) := by simp [textOf, h]

theorem textOf_eq_none {check : TextCheck} {raw : List Byte} (h : validText check raw = false) :
    textOf check raw = none := by simp [textOf, h]

end Sys2Proof.Machine
end

