-- ==== Sys2Proof/Laws/Decode.lean ====
section
/-! SUPPORT. Small laws of command words and of the decoder (Decode.lean). -/

namespace Sys2Proof

/-- Concatenation as a number: the left part in the more significant position (00_scope.md R8). -/
theorem toNat_append_add {v w : Nat} (x : BitVec v) (y : BitVec w) : (x ++ y).toNat = x.toNat * 2 ^ w + y.toNat := by
  rw [BitVec.toNat_append, ← Nat.shiftLeft_add_eq_or_of_lt y.isLt, Nat.shiftLeft_eq]

/-- A field of a word as a number. -/
theorem toNat_extract {w : Nat} (x : BitVec w) (lo len : Nat) : (x.extractLsb' lo len).toNat = x.toNat / 2 ^ lo % 2 ^ len := by
  rw [BitVec.extractLsb'_toNat, Nat.shiftRight_eq_div_pow]

/-- A command word as a number (30_encoding.md R93). -/
theorem commandWord_toNat (f : CommandFields) :
    (commandWord f).toNat = ((f.code.toNat * 2 ^ 6 + f.n6.toNat) * 2 ^ 6 + f.reserved.toNat) * 2 ^ 32 + f.imm.toNat := by
  simp only [commandWord, toNat_append_add]

/-- The fields of a word are those it was made of. -/
@[simp] theorem commandFields_commandWord (f : CommandFields) : commandFields (commandWord f) = f := by
  have h1 := f.code.isLt
  have h2 := f.n6.isLt
  have h3 := f.reserved.isLt
  have h4 := f.imm.isLt
  obtain ⟨code, n6, reserved, imm⟩ := f
  simp only [commandFields, CommandFields.mk.injEq]
  refine ⟨?_, ?_, ?_, ?_⟩ <;> apply BitVec.eq_of_toNat_eq <;> rw [toNat_extract, commandWord_toNat] <;>
    simp only at * <;> omega

/-- A word is made of its fields. -/
@[simp] theorem commandWord_commandFields (w : CommandWord) : commandWord (commandFields w) = w := by
  have h := w.isLt
  apply BitVec.eq_of_toNat_eq
  rw [commandWord_toNat]
  simp only [commandFields, toNat_extract]
  omega

namespace Machine

/-- Writing bytes at an offset past the first leaves the first byte. -/
theorem wrBytes_cons (b : Byte) (B : List Byte) (a : Nat) (s : List Byte) :
    wrBytes (b :: B) (a + 1) s = b :: wrBytes B a s := by
  induction s generalizing B a with
  | nil => rfl
  | cons v s ih => simp [wrBytes, List.set_cons_succ, ih]

end Machine

end Sys2Proof
end

