-- ==== Sys2Proof/Laws/Huffman.lean ====
section
/-! SUPPORT. Small laws of the Bit Buffer (Machine/Huffman.lean). -/

namespace Sys2Proof.Machine

/-- `pb'` is `(pb + n) mod 8` (40_bitbuffer.md R113). -/
@[simp] theorem wb_pb (b : BitBuf) (value n : Nat) : (wb b value n).pb.toNat = (b.pb.toNat + n) % 8 := by
  simp only [wb, BitVec.toNat_ofNat]
  omega

/-- The completed bytes stand behind those already in `q` (40_bitbuffer.md R113). -/
theorem wb_q (b : BitBuf) (value n : Nat) :
    (wb b value n).q = b.q ++ (List.range ((b.pb.toNat + n) / 8)).map fun i =>
      BitVec.ofNat 8 ((b.pv.toNat * 2 ^ n + value % 2 ^ n) / 2 ^ (b.pb.toNat + n - 8 * (i + 1)) % 256) := rfl

theorem two_pow_mod8_le (t : Nat) : 2 ^ (t % 8) ≤ 2 ^ 7 :=
  Nat.pow_le_pow_right (by omega) (by omega)

/-- `pv'` is the accumulator's low `pb'` bits (40_bitbuffer.md R113). -/
theorem wb_pv (b : BitBuf) (value n : Nat) :
    (wb b value n).pv.toNat = (b.pv.toNat * 2 ^ n + value % 2 ^ n) % 2 ^ ((b.pb.toNat + n) % 8) := by
  simp only [wb, codeOperand, BitVec.toNat_ofNat]
  refine Nat.mod_eq_of_lt (lt_of_lt_of_le (Nat.mod_lt _ (by positivity)) (two_pow_mod8_le _))

/-- After every write `pv < 2^pb` (10_state.md R22). -/
theorem wb_pending (b : BitBuf) (value n : Nat) : (wb b value n).pv.toNat < 2 ^ (wb b value n).pb.toNat := by
  rw [wb_pv, wb_pb]
  exact Nat.mod_lt _ (by positivity)

theorem boundaryOffset_eq (b : BitBuf) : boundaryOffset b = (8 - b.pb.toNat) % 8 := rfl

/-- Padding to the boundary leaves no bit pending (41_huffman_encoder.md R132). -/
theorem finishStream_aligned (cfg : Cfg) (b : BitBuf) :
    (finishStream cfg b).pb = 0#3 ∧ (finishStream cfg b).pv = 0#7 := by
  have hpb : ∀ c : BitBuf, (wb c 0 (boundaryOffset c)).pb.toNat = 0 := by
    intro c
    have := c.pb.isLt
    rw [wb_pb, boundaryOffset_eq]
    omega
  have hpv := wb_pending (wb b cfg.term.code.toNat cfg.term.len) 0
    (boundaryOffset (wb b cfg.term.code.toNat cfg.term.len))
  rw [hpb] at hpv
  exact ⟨BitVec.eq_of_toNat_eq (hpb _), BitVec.eq_of_toNat_eq (Nat.lt_one_iff.mp hpv)⟩

theorem codeBits_length (code len : Nat) : (codeBits code len).length = len := by simp [codeBits]

theorem codeBits_getElem (code len i : Nat) (h : i < (codeBits code len).length) :
    (codeBits code len)[i] = code.testBit (len - 1 - i) := by
  simp [codeBits]

/-- The bits of a longer field are the bits of its high part, then those of its low part. -/
theorem codeBits_append (code m n : Nat) : codeBits code (m + n) = codeBits (code / 2 ^ n) m ++ codeBits code n := by
  apply List.ext_getElem
  · simp [codeBits_length]
  · intro i h _
    rw [codeBits_length] at h
    rw [codeBits_getElem, List.getElem_append]
    split
    · rename_i hi
      rw [codeBits_length] at hi
      rw [codeBits_getElem, Nat.testBit_div_two_pow]
      congr 1
      omega
    · rename_i hi
      rw [codeBits_length] at hi
      rw [codeBits_getElem, codeBits_length]
      congr 1
      omega

/-- Only the low `len` bits of a code are read (30_encoding.md R97). -/
theorem codeBits_congr {c d len : Nat} (h : c % 2 ^ len = d % 2 ^ len) : codeBits c len = codeBits d len := by
  apply List.ext_getElem
  · simp [codeBits_length]
  · intro i hi _
    rw [codeBits_length] at hi
    rw [codeBits_getElem, codeBits_getElem]
    have := congrArg (fun x => Nat.testBit x (len - 1 - i)) h
    simp only [Nat.testBit_mod_two_pow] at this
    simpa [show len - 1 - i < len by omega] using this

theorem codeBits_zero (len : Nat) : codeBits 0 len = List.replicate len false := by
  simp [codeBits]

@[simp] theorem bytesBits_append (xs ys : List Byte) : bytesBits (xs ++ ys) = bytesBits xs ++ bytesBits ys := by
  simp [bytesBits]

theorem bytesBits_length (bs : List Byte) : (bytesBits bs).length = 8 * bs.length := by
  induction bs with
  | nil => rfl
  | cons b bs ih =>
    have : bytesBits (b :: bs) = codeBits b.toNat 8 ++ bytesBits bs := rfl
    rw [this, List.length_append, ih, codeBits_length, List.length_cons]
    omega

/-- Lengths of table codes (00_scope.md R6 (a), (b)). -/
theorem tableEntry_len_bounds (e : TableEntry) : 1 ≤ e.len ∧ e.len ≤ 16 := by
  have := e.lenPred.isLt
  simp only [TableEntry.len]
  omega

theorem terminalEntry_len_bounds (e : TerminalEntry) : 1 ≤ e.len ∧ e.len ≤ 32 := by
  have := e.lenPred.isLt
  simp only [TerminalEntry.len]
  omega

theorem rxcap_bounds (cfg : Cfg) : 1 ≤ cfg.rxcap ∧ cfg.rxcap ≤ 65535 := by
  have := cfg.rxcapPred.isLt
  simp only [Cfg.rxcap]
  omega

end Sys2Proof.Machine
end

