-- ==== Sys2Proof/Laws/State.lean ====
section
/-! SUPPORT. What each state update of Machine/Ops.lean does to each field: one lemma per field per update. -/

namespace Sys2Proof.Machine

@[simp] theorem takeFault_bb (f : FatalFault) (s : State) : (takeFault f s).bb = s.bb := rfl
@[simp] theorem takeFault_ph (f : FatalFault) (s : State) : (takeFault f s).ph = s.ph := rfl
@[simp] theorem takeFault_rx (f : FatalFault) (s : State) : (takeFault f s).rx = s.rx := rfl
@[simp] theorem takeFault_nRx (f : FatalFault) (s : State) : (takeFault f s).nRx = s.nRx := rfl
@[simp] theorem takeFault_cur (f : FatalFault) (s : State) : (takeFault f s).cur = s.cur := rfl
@[simp] theorem takeFault_seq (f : FatalFault) (s : State) : (takeFault f s).seq = .fault := rfl
@[simp] theorem takeFault_cause (f : FatalFault) (s : State) : (takeFault f s).cause = causeCode f := rfl
@[simp] theorem takeFault_unk (f : FatalFault) (s : State) : (takeFault f s).unk = s.unk := rfl
@[simp] theorem takeFault_txq (f : FatalFault) (s : State) : (takeFault f s).txq = s.txq := rfl
@[simp] theorem takeFault_trace (f : FatalFault) (s : State) : (takeFault f s).trace = s.trace := rfl
@[simp] theorem takeFault_resp (f : FatalFault) (s : State) : (takeFault f s).resp = s.resp := rfl
@[simp] theorem takeFault_port (f : FatalFault) (s : State) : (takeFault f s).port = s.port := rfl

@[simp] theorem endPass_bb (s : State) : (endPass s).bb = s.bb := rfl
@[simp] theorem endPass_ph (s : State) : (endPass s).ph = s.ph := rfl
@[simp] theorem endPass_rx (s : State) : (endPass s).rx = s.rx := rfl
@[simp] theorem endPass_nRx (s : State) : (endPass s).nRx = s.nRx := rfl
@[simp] theorem endPass_cur (s : State) : (endPass s).cur = s.cur := rfl
@[simp] theorem endPass_seq (s : State) : (endPass s).seq = .idle := rfl
@[simp] theorem endPass_cause (s : State) : (endPass s).cause = s.cause := rfl
@[simp] theorem endPass_unk (s : State) : (endPass s).unk = s.unk := rfl
@[simp] theorem endPass_txq (s : State) : (endPass s).txq = s.txq := rfl
@[simp] theorem endPass_trace (s : State) : (endPass s).trace = s.trace := rfl
@[simp] theorem endPass_resp (s : State) : (endPass s).resp = s.resp := rfl
@[simp] theorem endPass_port (s : State) : (endPass s).port = s.port := rfl

@[simp] theorem pushFrame_bb (f : Frame) (s : State) : (pushFrame f s).bb = s.bb := rfl
@[simp] theorem pushFrame_ph (f : Frame) (s : State) : (pushFrame f s).ph = s.ph := rfl
@[simp] theorem pushFrame_rx (f : Frame) (s : State) : (pushFrame f s).rx = s.rx := rfl
@[simp] theorem pushFrame_nRx (f : Frame) (s : State) : (pushFrame f s).nRx = s.nRx := rfl
@[simp] theorem pushFrame_cur (f : Frame) (s : State) : (pushFrame f s).cur = s.cur := rfl
@[simp] theorem pushFrame_seq (f : Frame) (s : State) : (pushFrame f s).seq = s.seq := rfl
@[simp] theorem pushFrame_cause (f : Frame) (s : State) : (pushFrame f s).cause = s.cause := rfl
@[simp] theorem pushFrame_unk (f : Frame) (s : State) : (pushFrame f s).unk = s.unk := rfl
@[simp] theorem pushFrame_txq (f : Frame) (s : State) : (pushFrame f s).txq = s.txq ++ [f] := rfl
@[simp] theorem pushFrame_trace (f : Frame) (s : State) : (pushFrame f s).trace = s.trace := rfl
@[simp] theorem pushFrame_resp (f : Frame) (s : State) : (pushFrame f s).resp = s.resp := rfl
@[simp] theorem pushFrame_port (f : Frame) (s : State) : (pushFrame f s).port = s.port := rfl

@[simp] theorem loadRx_bb (data : List Byte) (s : State) : (loadRx data s).bb = s.bb := rfl
@[simp] theorem loadRx_ph (data : List Byte) (s : State) : (loadRx data s).ph = s.ph := rfl
@[simp] theorem loadRx_rx (data : List Byte) (s : State) : (loadRx data s).rx = cellsFrom 0 data := rfl
@[simp] theorem loadRx_nRx (data : List Byte) (s : State) : (loadRx data s).nRx = data.length := rfl
@[simp] theorem loadRx_cur (data : List Byte) (s : State) : (loadRx data s).cur = 0 := rfl
@[simp] theorem loadRx_seq (data : List Byte) (s : State) : (loadRx data s).seq = .run := rfl
@[simp] theorem loadRx_cause (data : List Byte) (s : State) : (loadRx data s).cause = s.cause := rfl
@[simp] theorem loadRx_unk (data : List Byte) (s : State) : (loadRx data s).unk = s.unk := rfl
@[simp] theorem loadRx_txq (data : List Byte) (s : State) : (loadRx data s).txq = s.txq := rfl
@[simp] theorem loadRx_trace (data : List Byte) (s : State) : (loadRx data s).trace = s.trace := rfl
@[simp] theorem loadRx_resp (data : List Byte) (s : State) : (loadRx data s).resp = s.resp := rfl
@[simp] theorem loadRx_port (data : List Byte) (s : State) : (loadRx data s).port = s.port := rfl

@[simp] theorem restart_bb (s : State) : (restart s).bb = BitBuf.empty := rfl
@[simp] theorem restart_ph (s : State) : (restart s).ph = .idle := rfl
@[simp] theorem restart_rx (s : State) : (restart s).rx = [] := rfl
@[simp] theorem restart_nRx (s : State) : (restart s).nRx = 0 := rfl
@[simp] theorem restart_cur (s : State) : (restart s).cur = 0 := rfl
@[simp] theorem restart_seq (s : State) : (restart s).seq = .idle := rfl
@[simp] theorem restart_cause (s : State) : (restart s).cause = 0#3 := rfl
@[simp] theorem restart_unk (s : State) : (restart s).unk = false := rfl
@[simp] theorem restart_txq (s : State) : (restart s).txq = [] := rfl
@[simp] theorem restart_trace (s : State) : (restart s).trace = [] := rfl
@[simp] theorem restart_resp (s : State) : (restart s).resp = none := rfl
@[simp] theorem restart_port (s : State) : (restart s).port = s.port := rfl

/-- Pushing frames one after another appends them in order and touches nothing else (44_packets_outbound.md R194). -/
theorem foldl_pushFrame (fs : List Frame) (s : State) :
    fs.foldl (fun s f => pushFrame f s) s = { s with txq := s.txq ++ fs } := by
  induction fs generalizing s with
  | nil => simp
  | cons f fs ih => rw [List.foldl_cons, ih]; simp [pushFrame]

/-- A commit as one record update (45_sequencer.md R211). -/
theorem commit_eq (len : Nat) (e : PacketEffect) (s : State) :
    commit len e s = { s with
      txq := s.txq ++ e.frames, trace := s.trace ++ [e.event], cur := s.cur + 1 + len, unk := s.unk || e.skips } := by
  simp [commit, foldl_pushFrame]

@[simp] theorem commit_bb (len : Nat) (e : PacketEffect) (s : State) : (commit len e s).bb = s.bb := by
  rw [commit_eq]
@[simp] theorem commit_ph (len : Nat) (e : PacketEffect) (s : State) : (commit len e s).ph = s.ph := by
  rw [commit_eq]
@[simp] theorem commit_rx (len : Nat) (e : PacketEffect) (s : State) : (commit len e s).rx = s.rx := by
  rw [commit_eq]
@[simp] theorem commit_nRx (len : Nat) (e : PacketEffect) (s : State) : (commit len e s).nRx = s.nRx := by
  rw [commit_eq]
@[simp] theorem commit_cur (len : Nat) (e : PacketEffect) (s : State) : (commit len e s).cur = s.cur + 1 + len := by
  rw [commit_eq]
@[simp] theorem commit_seq (len : Nat) (e : PacketEffect) (s : State) : (commit len e s).seq = s.seq := by
  rw [commit_eq]
@[simp] theorem commit_cause (len : Nat) (e : PacketEffect) (s : State) : (commit len e s).cause = s.cause := by
  rw [commit_eq]
@[simp] theorem commit_unk (len : Nat) (e : PacketEffect) (s : State) : (commit len e s).unk = (s.unk || e.skips) := by
  rw [commit_eq]
@[simp] theorem commit_txq (len : Nat) (e : PacketEffect) (s : State) : (commit len e s).txq = s.txq ++ e.frames := by
  rw [commit_eq]
@[simp] theorem commit_trace (len : Nat) (e : PacketEffect) (s : State) : (commit len e s).trace = s.trace ++ [e.event] := by
  rw [commit_eq]
@[simp] theorem commit_resp (len : Nat) (e : PacketEffect) (s : State) : (commit len e s).resp = s.resp := by
  rw [commit_eq]
@[simp] theorem commit_port (len : Nat) (e : PacketEffect) (s : State) : (commit len e s).port = s.port := by
  rw [commit_eq]

end Sys2Proof.Machine
end

