-- ==== Sys2Proof/Laws/Ops.lean ====
section
/-! SUPPORT. What each shared operation of Machine/Ops.lean can do, said once; the canonical form of `rx`. -/

namespace Sys2Proof.Machine

/-! ## Outcomes -/

theorem refuse_eq (s : State) : refuse s = .next { s with resp := some .refused } := rfl

theorem complete_eq (r : Result) (s : State) : complete r s = .next { s with resp := some (.ok r) } := rfl

/-- A record is sent exactly while the sequencer runs. -/
theorem sendRecord_next_iff (f : Frame) (s t : State) :
    sendRecord f s = .next t ↔ s.seq = .run ∧ t = pushFrame f s := by
  unfold sendRecord
  split <;> simp_all [eq_comm]

/-- A packet step answers a next state exactly while the sequencer runs. -/
theorem packetStep_next_iff (len : Nat) (body : Except FatalFault PacketEffect) (s t : State) :
    packetStep len body s = .next t ↔ s.seq = .run ∧ t = packetState len body s := by
  unfold packetStep
  split <;> simp_all [eq_comm]

theorem packetStep_run {s : State} (h : s.seq = .run) (len : Nat) (body : Except FatalFault PacketEffect) :
    packetStep len body s = .next (packetState len body s) := by
  simp [packetStep, h]

/-- The three ways of a packet step: it does not fit, its rule faults, or it commits. -/
theorem packetState_cases (len : Nat) (body : Except FatalFault PacketEffect) (s : State) :
    (s.nRx < s.cur + 1 + len ∧ packetState len body s = takeFault .incompleteBuffer s) ∨
    (s.cur + 1 + len ≤ s.nRx ∧ ∃ f, body = .error f ∧ packetState len body s = takeFault f s) ∨
    (s.cur + 1 + len ≤ s.nRx ∧ ∃ e, body = .ok e ∧ packetState len body s = commit len e s) := by
  unfold packetState
  split
  · exact .inl ⟨‹_›, rfl⟩
  · cases body with
    | error f => exact .inr (.inl ⟨by omega, f, rfl, rfl⟩)
    | ok e => exact .inr (.inr ⟨by omega, e, rfl, rfl⟩)

theorem packetState_commit {len : Nat} {s : State} (h : s.cur + 1 + len ≤ s.nRx) (e : PacketEffect) :
    packetState len (.ok e) s = commit len e s := by
  simp [packetState, Nat.not_lt.mpr h]

theorem packetState_error {len : Nat} {s : State} (h : s.cur + 1 + len ≤ s.nRx) (f : FatalFault) :
    packetState len (.error f) s = takeFault f s := by
  simp [packetState, Nat.not_lt.mpr h]

theorem packetState_short {len : Nat} {s : State} (h : s.nRx < s.cur + 1 + len)
    (body : Except FatalFault PacketEffect) : packetState len body s = takeFault .incompleteBuffer s := by
  simp [packetState, h]

/-! ## What comes next -/

theorem nextWork_issue {s : State} {w : CommandWord} {data : List Byte} {rest : List HostMove}
    (h : s.port = .issue w data :: rest) : nextWork s = commandWork w data { s with port := rest } := by
  simp [nextWork, h]

theorem nextWork_hold {s : State} {rest : List HostMove} (h : s.port = .hold :: rest) :
    nextWork s = heldWork { s with port := rest } := by
  simp [nextWork, h]

theorem nextWork_nil {s : State} (h : s.port = []) : nextWork s = heldWork s := by
  simp [nextWork, h]

/-- A command is run, refused, or stops for its data bytes. -/
theorem commandWork_cases (w : CommandWord) (data : List Byte) (s : State) :
    (∃ i, decodeCommand w data = .ok i ∧ commandWork w data s = .run i s) ∨
    (∃ n given, decodeCommand w data = .error (.dataCount n given) ∧
      commandWork w data s = .settled (.fault (.dataCount n given))) ∨
    (∃ e, decodeCommand w data = .error e ∧ commandWork w data s = .settled (refuse s)) := by
  unfold commandWork
  split
  · exact .inl ⟨_, ‹_›, rfl⟩
  · exact .inr (.inl ⟨_, _, ‹_›, rfl⟩)
  · exact .inr (.inr ⟨_, ‹_›, rfl⟩)

/-! ## The memory of `rx` -/

theorem cellsFrom_fst (a : Nat) (bs : List Byte) : (cellsFrom a bs).map Prod.fst = List.range' a bs.length := by
  induction bs generalizing a with
  | nil => rfl
  | cons b bs ih => simp [cellsFrom, ih, List.range'_succ]

/-- Byte `k` of the data stands at address `a + k`, no other address holds a value (45_sequencer.md R210). -/
theorem memGet_cellsFrom (a : Nat) (bs : List Byte) (k : Nat) :
    memGet (cellsFrom a bs) k = if a ≤ k then bs[k - a]? else none := by
  induction bs generalizing a with
  | nil => simp [cellsFrom, memGet]
  | cons b bs ih =>
    simp only [cellsFrom, memGet, ih]
    by_cases h : a = k
    · subst h; simp
    · by_cases hle : a ≤ k
      · have : k - a = (k - (a + 1)) + 1 := by omega
        simp [h, hle, show a + 1 ≤ k by omega, this]
      · simp [h, hle, show ¬ a + 1 ≤ k by omega]

/-- The canonical form as a fact about the addresses alone. -/
theorem memWf_iff (m : List Host.Cell) : memWf m = true ↔ (m.map Prod.fst).IsChain (· < ·) := by
  induction m with
  | nil => simp [memWf]
  | cons c m ih =>
    cases m with
    | nil => simp [memWf]
    | cons d m => obtain ⟨a, b⟩ := c; obtain ⟨a', b'⟩ := d; simp_all [memWf]

theorem memWf_of_range' {m : List Host.Cell} {a n : Nat} (h : m.map Prod.fst = List.range' a n) : memWf m = true := by
  rw [memWf_iff, h]
  exact (List.pairwise_lt_range' (s := a) (n := n) (step := 1)).isChain

theorem memWf_cellsFrom (a : Nat) (bs : List Byte) : memWf (cellsFrom a bs) = true :=
  memWf_of_range' (cellsFrom_fst a bs)

/-- Reset memory is in canonical form. -/
theorem reset_memWf : memWf State.reset.rx = true := rfl

/-- Every operation that writes `rx` leaves it in canonical form: the load and the reset, the only two
(10_state.md R25). -/
theorem loadRx_memWf (data : List Byte) (s : State) : memWf (loadRx data s).rx = true := memWf_cellsFrom 0 data

theorem restart_memWf (s : State) : memWf (restart s).rx = true := rfl

theorem takeFault_memWf (f : FatalFault) (s : State) : memWf (takeFault f s).rx = memWf s.rx := rfl

theorem commit_memWf (len : Nat) (e : PacketEffect) (s : State) : memWf (commit len e s).rx = memWf s.rx := by simp

/-- A listed address holds a value and no other does. -/
theorem memGet_isSome_iff (m : List Host.Cell) (a : Nat) : (memGet m a).isSome = true ↔ a ∈ m.map Prod.fst := by
  induction m with
  | nil => simp [memGet]
  | cons c m ih =>
    obtain ⟨k, b⟩ := c
    by_cases h : k = a
    · simp [memGet, h]
    · simp only [memGet, h, if_false, ih, List.map_cons, List.mem_cons]
      exact ⟨.inr, fun h' => h'.resolve_left (fun e => h e.symm)⟩

end Sys2Proof.Machine
end

