-- ==== Sys2Proof/Laws/PerInstr.lean ====
section
/-! SUPPORT. One statement per instruction as syntax: the shape of its encoding (30_encoding.md R81 to R93). -/

namespace Sys2Proof.Laws.Shape

open Sys2Proof Sys2Proof.Machine

/-- A command's word has one of the ten codes, its reserved bits are 0 and its data port carries what the word says; a
packet is an opcode and a body of the length that the opcode alone fixes; a record starts with an outbound opcode. -/
def Statement (i : Instr) : Prop :=
  ∀ cfg : Cfg, i.wf = true →
    match encode cfg i with
    | .command w data =>
      (commandFields w).code.toNat ≤ 9 ∧ (commandFields w).reserved = 0#6 ∧ data.length = dataNeed i
    | .packet bs => ∃ op body, bs = op :: body ∧ body.length = bodyLen cfg op
    | .record bs => ∃ op rest, bs = op :: rest ∧ op ∈ [0xA8#8, 0x8C#8, 0xB9#8, 0xA9#8]

theorem reset : Statement .reset := fun _ _ => by simp [encode, plainWord, dataNeed]

theorem encStart : Statement .encStart := fun _ _ => by simp [encode, plainWord, dataNeed]

theorem writeBits (value : BitVec 32) (bitCount : BitVec 6) : Statement (.writeBits value bitCount) := fun _ _ => by
  simp [encode, dataNeed]

theorem encPut (byte : Byte) : Statement (.encPut byte) := fun _ _ => by simp [encode, dataNeed]

theorem encFinish : Statement .encFinish := fun _ _ => by simp [encode, plainWord, dataNeed]

theorem readByte : Statement .readByte := fun _ _ => by simp [encode, plainWord, dataNeed]

theorem bbOffset : Statement .bbOffset := fun _ _ => by simp [encode, plainWord, dataNeed]

theorem rxLoad (n : BitVec 16) (data : List Byte) : Statement (.rxLoad n data) := fun _ h => by
  simpa [encode, dataNeed, Instr.wf] using h

theorem txPop : Statement .txPop := fun _ _ => by simp [encode, plainWord, dataNeed]

theorem rdStatus : Statement .rdStatus := fun _ _ => by simp [encode, plainWord, dataNeed]

theorem loginSeed (seed major minor revision patch : BitVec 32) :
    Statement (.loginSeed seed major minor revision patch) := fun _ _ =>
  ⟨_, _, rfl, by simp [bodyLen, loginSeedBody]⟩

theorem accountLogin (username password : List Byte) (tail : Byte) :
    Statement (.accountLogin username password tail) := fun _ h =>
  ⟨_, _, rfl, by simp_all [Instr.wf, strW, bodyLen, accountLoginBody]⟩

theorem serverSelect (index : BitVec 16) : Statement (.serverSelect index) := fun _ _ =>
  ⟨_, _, rfl, by simp [bodyLen, serverSelectBody]⟩

theorem postLogin (key : BitVec 32) (str0 str1 : List Byte) : Statement (.postLogin key str0 str1) := fun _ h =>
  ⟨_, _, rfl, by simp_all [Instr.wf, strW, bodyLen, postLoginBody]⟩

theorem ignored (op : Byte) : Statement (.ignored op) := fun _ h =>
  ⟨_, _, rfl, by simp_all [Instr.wf, recognisedOpcodes, bodyLen]⟩

theorem serverList : Statement .serverList := fun cfg _ =>
  ⟨0xA8#8, (serverListRecord cfg).tail, by
    simp [serverListRecord, asmNew, wrU8, wrU16, wrBytes, wrBytes_cons, List.replicate_succ], by decide⟩

theorem serverRedirect : Statement .serverRedirect := fun cfg _ =>
  ⟨0x8C#8, (serverRedirectRecord cfg).tail, by
    simp [serverRedirectRecord, asmNew, wrU8, wrU16, wrU32, wrBytes, wrBytes_cons, List.replicate_succ], by decide⟩

theorem features : Statement .features := fun cfg _ => ⟨0xB9#8, cfg.featuresTail, rfl, by decide⟩

theorem charList : Statement .charList := fun cfg _ => ⟨0xA9#8, cfg.charlistTail, rfl, by decide⟩

end Sys2Proof.Laws.Shape
end

