-- ==== Sys2Proof/Laws/Step.lean ====
section
/-! SUPPORT. Small laws of the step, of runs, and of reading `rx` in a sound state. -/

namespace Sys2Proof.Machine

/-- While the host holds, what comes next is the instance's own move, a hold taken off the host's moves. -/
theorem nextWork_hostHolds {s : State} (h : hostHolds s.port = true) :
    nextWork s = heldWork { s with port := s.port.tail } := by
  obtain ⟨bb, ph, rx, nRx, cur, seq, cause, unk, txq, trace, resp, port⟩ := s
  match port, h with
  | [], _ => exact nextWork_nil rfl
  | .hold :: _, _ => exact nextWork_hold rfl

/-- The host's moves are no part of the receive buffer. -/
@[simp] theorem rxRead_port (s : State) (p : List HostMove) : rxRead { s with port := p } = rxRead s := rfl

/-- The host's moves are no part of the invariants. -/
theorem inv_port {s : State} (h : s.Inv) (p : List HostMove) : ({ s with port := p } : State).Inv :=
  ⟨h.pending, h.values, h.cursor, h.capacity, h.causeFault, h.causeKnown, h.doneAligned, h.idleEmpty, h.frames⟩

theorem core_run_zero (s : State) : core.run 0 s = .next s := rfl

/-- A run goes on through a step that answers a next state. -/
theorem core_run_succ {k : Nat} {s t : State} (h : step s = .next t) : core.run (k + 1) s = core.run k t := by
  have h' : core.step s = .next t := h
  simp only [Host.Core.run, h']

theorem stepOrStay_next {s t : State} (h : step s = .next t) : stepOrStay s = t := by
  simp [stepOrStay, h]

/-- In a sound state a byte of `rx` can be read exactly below `n_rx` (20_memory.md R59). -/
theorem rxRead_eq_none_iff {s : State} (hi : s.Inv) (a : Nat) : rxRead s a = none ↔ s.nRx ≤ a := by
  unfold rxRead
  split
  · have h := memGet_isSome_iff s.rx a
    rw [hi.values, List.mem_range] at h
    cases hg : memGet s.rx a <;> simp_all
  · simp; omega

/-- In a sound state a field that ends before `n_rx` is read: its bytes, and the cursor behind it. -/
theorem rdField_rxRead {s : State} (hi : s.Inv) {c lim w : Nat} (hl : lim ≤ s.nRx) (hw : c + w ≤ lim) :
    ∃ bs : List Byte, bs.length = w ∧ rdField (rxRead s) { c := c, lim := lim } w = .ok bs { c := c + w, lim := lim } := by
  rcases rdField_cases (rxRead s) { c := c, lim := lim } w with ⟨h, -⟩ | ⟨-, a, ha, -, hlt, -⟩ | ⟨-, bs, hm, h⟩
  · simp only at h; omega
  · rw [rxRead_eq_none_iff hi] at ha; simp only at hlt; omega
  · exact ⟨bs, ((memRead_ok_iff _ _ _ _).mp hm).1, h⟩

end Sys2Proof.Machine
end

