-- ==== Sys2Proof/Tests/Slice0.lean ====
section
/-! SUPPORT. Tests. Expected values come from 95_test_vectors.md (its sections are named) or are worked by hand from the
encoding tables of 30_encoding.md; the last part shows that the hypotheses of each statement can be met. -/

namespace Sys2Proof.Tests

open Sys2Proof.Machine

/-! ## The tables and the configuration of 95_test_vectors.md section 0 -/

/-- `T_A` with a default configuration around it. -/
def tA : Cfg := { (default : Cfg) with htab := fun b => { code := b.setWidth 16, lenPred := 8 }, term := { code := 1#32, lenPred := 0 } }

/-- `CFG_T`, whose table is `T_B`. -/
def cfgT : Cfg where
  htab := fun b =>
    if b = 0x00#8 then { code := 0#16, lenPred := 0 }
    else if b.toNat < 0x80 then { code := 0x300#16 + b.setWidth 16, lenPred := 9 }
    else { code := 0xE000#16 + (b.setWidth 16 - 0x80#16), lenPred := 15 }
  term := { code := 2#32, lenPred := 1 }
  rxcapPred := 255
  ignLen := fun _ => 0
  textCheck := .utf8
  listFlags := 0x5D#8
  shardIndex := 2#16
  shardName := #v[0x54#8, 0x65#8, 0x73#8, 0x74#8, 0x53#8, 0x68#8, 0x72#8, 0x64#8]
  shardStatus := 0x11#8
  shardTz := 0x22#8
  shardAddr := #v[0x7F#8, 0x00#8, 0x00#8, 0x01#8]
  redirAddr := #v[0x7F#8, 0x00#8, 0x00#8, 0x01#8]
  redirPort := 2593#16
  redirKey := 0xDEADBEEF#32
  featuresTail := [0x00#8, 0x03#8]
  charlistTail := [0x00#8, 0x06#8, 0x00#8, 0x80#8, 0xFF#8]
  nInstPred := 0

/-- Bytes followed by zero bytes up to 30. -/
def pad30 (bs : List Byte) : List Byte := bs ++ List.replicate (30 - bs.length) 0#8

/-- `U30("alice")`. -/
def alice : List Byte := pad30 [0x61#8, 0x6C#8, 0x69#8, 0x63#8, 0x65#8]

/-- `U30("secret")`. -/
def secret : List Byte := pad30 [0x73#8, 0x65#8, 0x63#8, 0x72#8, 0x65#8, 0x74#8]

/-- Thirty bytes that are no text under either check. -/
def noText : List Byte := pad30 [0xFF#8]

/-- A running instance with the given bytes loaded and the cursor at 0. -/
def running (bs : List Byte) : State := { loadRx bs State.reset with resp := some (.ok .none) }

/-- An instance that has taken IncompleteBuffer on the given bytes. -/
def faulted (bs : List Byte) : State := takeFault .incompleteBuffer (running bs)

/-- An idle instance in encoder phase E_ACTIVE with the given Bit Buffer. -/
def encoding (b : BitBuf) : State := { State.reset with ph := .active, bb := b }

/-- The host's next move is a command. -/
def issuing (w : CommandWord) (data : List Byte) (s : State) : State := { s with port := [.issue w data] }

/-! ## Well-formedness: an ill-formed term for each check -/

theorem test_wf_rxLoad_count : (Instr.rxLoad 2#16 [0xA0#8]).wf = false ∧ (Instr.rxLoad 1#16 [0xA0#8]).wf = true := by decide

theorem test_wf_accountLogin_username : (Instr.accountLogin (alice ++ [0#8]) secret 0#8).wf = false := by decide

theorem test_wf_accountLogin_password :
    (Instr.accountLogin alice (secret.take 29) 0#8).wf = false ∧ (Instr.accountLogin alice secret 0#8).wf = true := by decide

theorem test_wf_postLogin_str0 : (Instr.postLogin 0#32 [] secret).wf = false := by decide

theorem test_wf_postLogin_str1 :
    (Instr.postLogin 0#32 alice []).wf = false ∧ (Instr.postLogin 0#32 alice secret).wf = true := by decide

theorem test_wf_ignored_opcode :
    (Instr.ignored 0xEF#8).wf = false ∧ (Instr.ignored 0x80#8).wf = false ∧ (Instr.ignored 0xA0#8).wf = false ∧
    (Instr.ignored 0x91#8).wf = false ∧ (Instr.ignored 0xA8#8).wf = true := by decide

/-! ## Decoding: words written out from 30_encoding.md R83 to R93, one for every constructor

A command word is code (4 bits), n6 (6), reserved (6), imm (32). -/

theorem test_decode_reset :
    decode (.command (0b0000#4 ++ 0b000000#6 ++ 0b000000#6 ++ 0x00000000#32) []) = .ok .reset := by decide

theorem test_decode_encStart :
    decode (.command (0b0001#4 ++ 0b000000#6 ++ 0b000000#6 ++ 0x00000000#32) []) = .ok .encStart := by decide

theorem test_decode_writeBits :
    decode (.command (0b0010#4 ++ 0b010001#6 ++ 0b000000#6 ++ 0x0001FFFF#32) []) = .ok (.writeBits 0x1FFFF#32 17#6) := by
  decide

theorem test_decode_encPut :
    decode (.command (0b0011#4 ++ 0b000000#6 ++ 0b000000#6 ++ 0x0000006C#32) []) = .ok (.encPut 0x6C#8) := by decide

theorem test_decode_encFinish :
    decode (.command (0b0100#4 ++ 0b000000#6 ++ 0b000000#6 ++ 0x00000000#32) []) = .ok .encFinish := by decide

theorem test_decode_readByte :
    decode (.command (0b0101#4 ++ 0b000000#6 ++ 0b000000#6 ++ 0x00000000#32) []) = .ok .readByte := by decide

theorem test_decode_bbOffset :
    decode (.command (0b0110#4 ++ 0b000000#6 ++ 0b000000#6 ++ 0x00000000#32) []) = .ok .bbOffset := by decide

theorem test_decode_rxLoad :
    decode (.command (0b0111#4 ++ 0b000000#6 ++ 0b000000#6 ++ 0x00000002#32) [0xA0#8, 0xFF#8]) =
      .ok (.rxLoad 2#16 [0xA0#8, 0xFF#8]) := by decide

theorem test_decode_txPop :
    decode (.command (0b1000#4 ++ 0b000000#6 ++ 0b000000#6 ++ 0x00000000#32) []) = .ok .txPop := by decide

theorem test_decode_rdStatus :
    decode (.command (0b1001#4 ++ 0b000000#6 ++ 0b000000#6 ++ 0x00000000#32) []) = .ok .rdStatus := by decide

/-- The body of 95_test_vectors.md S4. -/
theorem test_decode_loginSeed :
    decode (.packet [0xEF#8, 0xDE#8, 0xAD#8, 0xBE#8, 0xEF#8, 0x00#8, 0x00#8, 0x00#8, 0x07#8, 0x00#8, 0x00#8, 0x00#8, 0x00#8,
      0x00#8, 0x00#8, 0x00#8, 0x0F#8, 0x00#8, 0x00#8, 0x00#8, 0x03#8]) =
      .ok (.loginSeed 3735928559#32 7#32 0#32 15#32 3#32) := by decide

theorem test_decode_accountLogin :
    decode (.packet ([0x80#8] ++ alice ++ secret ++ [0x07#8])) = .ok (.accountLogin alice secret 0x07#8) := by decide

theorem test_decode_serverSelect : decode (.packet [0xA0#8, 0x12#8, 0x34#8]) = .ok (.serverSelect 0x1234#16) := by decide

theorem test_decode_postLogin :
    decode (.packet ([0x91#8, 0xDE#8, 0xAD#8, 0xBE#8, 0xEF#8] ++ alice ++ secret)) =
      .ok (.postLogin 0xDEADBEEF#32 alice secret) := by decide

theorem test_decode_ignored :
    decode (.packet [0x73#8]) = .ok (.ignored 0x73#8) ∧ decode (.packet [0xA9#8, 0x00#8]) = .ok (.ignored 0xA9#8) := by decide

theorem test_decode_serverList :
    decode (.record ([0xA8#8, 0x00#8, 0x2E#8, 0x5D#8, 0x00#8, 0x01#8] ++ List.replicate 40 0#8)) = .ok .serverList := by decide

theorem test_decode_serverRedirect :
    decode (.record [0x8C#8, 0x7F#8, 0x00#8, 0x00#8, 0x01#8, 0x0A#8, 0x21#8, 0xDE#8, 0xAD#8, 0xBE#8, 0xEF#8]) =
      .ok .serverRedirect := by decide

theorem test_decode_features : decode (.record [0xB9#8, 0x00#8, 0x03#8]) = .ok .features := by decide

theorem test_decode_charList : decode (.record [0xA9#8, 0x00#8, 0x06#8]) = .ok .charList := by decide

/-- R94 (a), (b): reserved codes and must-be-zero bits, one bit at a time. -/
theorem test_decode_rejects :
    decode (.command (0b1010#4 ++ 0b000000#6 ++ 0b000000#6 ++ 0x00000000#32) []) = .error .reservedCode ∧
    decode (.command (0b1111#4 ++ 0b000000#6 ++ 0b000000#6 ++ 0x00000000#32) []) = .error .reservedCode ∧
    decode (.command (0b0010#4 ++ 0b000000#6 ++ 0b000001#6 ++ 0x00000000#32) []) = .error .mustBeZero ∧
    decode (.command (0b0101#4 ++ 0b100000#6 ++ 0b000000#6 ++ 0x00000000#32) []) = .error .mustBeZero ∧
    decode (.command (0b0011#4 ++ 0b000000#6 ++ 0b000000#6 ++ 0x00000100#32) []) = .error .mustBeZero ∧
    decode (.command (0b0111#4 ++ 0b000000#6 ++ 0b000000#6 ++ 0x00010000#32) []) = .error .mustBeZero ∧
    decode (.command (0b0111#4 ++ 0b000000#6 ++ 0b000000#6 ++ 0x00000002#32) [0xA0#8]) = .error (.dataCount 2 1) ∧
    decode (.packet []) = .error (.noValue 0) ∧ decode (.record [0x73#8]) = .error .notRecord := by decide

/-- The host's numbering of a table word: two rows, read through `decodeTableWord`. -/
theorem test_tableWord :
    decodeTableWord 24 0x3412A0 = some (.serverSelect 0x1234#16) ∧ decodeTableWord 48 0x300000000061 = some (.encPut 0x61#8) ∧
    decodeTableWord 368 0xA8 = some .serverList := by decide

/-! ## The Bit Buffer (95_test_vectors.md section 2.1) -/

theorem test_wb_short :
    wb { pv := 0#7, pb := 0#3, q := [] } 0xFFFFFFF5 4 = { pv := 0b0101#7, pb := 4#3, q := [] } ∧
    wb { pv := 0b0101#7, pb := 4#3, q := [] } 1 1 = { pv := 0b01011#7, pb := 5#3, q := [] } ∧
    wb { pv := 0b01011#7, pb := 5#3, q := [] } 0x2A 7 = { pv := 0b1010#7, pb := 4#3, q := [0x5A#8] } := by decide

theorem test_wb_long :
    wb { pv := 0b1111111#7, pb := 7#3, q := [] } 0xFFFFFFFF 32 =
      { pv := 0b1111111#7, pb := 7#3, q := [0xFF#8, 0xFF#8, 0xFF#8, 0xFF#8] } ∧
    wb { pv := 0b1010101#7, pb := 7#3, q := [] } 0x80000001 32 =
      { pv := 1#7, pb := 7#3, q := [0xAB#8, 0x00#8, 0x00#8, 0x00#8] } ∧
    wb { pv := 0b1111111#7, pb := 7#3, q := [] } 1 1 = { pv := 0#7, pb := 0#3, q := [0xFF#8] } := by decide

/-- P1 step 6, and `WRITE_BITS 0, 33`. -/
theorem test_exec_writeBits :
    exec (.writeBits 0xDEADBEEF#32 32#6) (encoding { pv := 0b1010#7, pb := 4#3, q := [0x5A#8] }) =
      .next { encoding { pv := 0b1111#7, pb := 4#3, q := [0x5A#8, 0xAD#8, 0xEA#8, 0xDB#8, 0xEE#8] } with
        resp := some (.ok .none) } ∧
    exec (.writeBits 0#32 33#6) (encoding BitBuf.empty) =
      .next { encoding BitBuf.empty with resp := some .refused } := ⟨rfl, rfl⟩

theorem test_exec_readByte :
    exec .readByte (encoding { pv := 0b1010#7, pb := 4#3, q := [0x5A#8, 0xAD#8] }) =
      .next { encoding { pv := 0b1010#7, pb := 4#3, q := [0xAD#8] } with resp := some (.ok (.byte (some 0x5A#8))) } ∧
    exec .readByte (encoding { pv := 0b0101#7, pb := 4#3, q := [] }) =
      .next { encoding { pv := 0b0101#7, pb := 4#3, q := [] } with resp := some (.ok (.byte none)) } := ⟨rfl, rfl⟩

theorem test_exec_bbOffset :
    exec .bbOffset (encoding { pv := 1#7, pb := 1#3, q := [] }) =
      .next { encoding { pv := 1#7, pb := 1#3, q := [] } with resp := some (.ok (.offset 7#3)) } ∧
    exec .bbOffset State.reset = .next { State.reset with resp := some (.ok (.offset 0#3)) } := ⟨rfl, rfl⟩

/-! ## The Huffman Encoder (95_test_vectors.md section 2.2) -/

theorem test_compress_tA :
    compress tA [] = [0x80#8] ∧ compress tA [0x41#8] = [0x20#8, 0xC0#8] ∧
    compress tA (List.replicate 7 0#8) = List.replicate 7 0#8 ++ [0x01#8] := by decide

theorem test_compress_tB :
    compress cfgT [0x7F#8, 0x80#8] = [0xDF#8, 0xF8#8, 0x00#8, 0x20#8] ∧
    compress cfgT (List.replicate 6 0#8) = [0x02#8] ∧
    compress cfgT [0x61#8, 0x6C#8, 0x69#8, 0x63#8, 0x65#8] = [0xD8#8, 0x76#8, 0xCD#8, 0xA7#8, 0x63#8, 0xD9#8, 0x60#8] := by
  decide

/-- Corner cases (c), (d): the longest terminal code. -/
theorem test_finish_longest :
    compress { tA with term := { code := 0xDEADBEEF#32, lenPred := 31 } } [0x00#8] =
      [0x00#8, 0x6F#8, 0x56#8, 0xDF#8, 0x77#8, 0x80#8] ∧
    (finishStream { tA with term := { code := 0xDEADBEEF#32, lenPred := 31 } } { pv := 0b1111111#7, pb := 7#3, q := [] }).q =
      [0xFF#8, 0xBD#8, 0x5B#8, 0x7D#8, 0xDE#8] := by decide

theorem test_putByte : putByte cfgT BitBuf.empty 0x41#8 = { pv := 1#7, pb := 2#3, q := [0xD0#8] } := by decide

/-- The phase machine of section 2.2. -/
theorem test_exec_encoder_phases :
    exec (.encPut 0x41#8) State.reset = .next { State.reset with resp := some .refused } ∧
    exec .encFinish State.reset = .next { State.reset with resp := some .refused } ∧
    exec .encStart { State.reset with ph := .done, bb := { pv := 0#7, pb := 0#3, q := [0x60#8] } } =
      .next { encoding BitBuf.empty with resp := some (.ok .none) } := ⟨rfl, rfl, rfl⟩

theorem test_refDecode : refDecode tA [0x3F#8, 0xA0#8, 0x20#8] = some [0x7F#8, 0x80#8] := by decide

/-! ## Fields (95_test_vectors.md section 2.3) -/

theorem test_fields :
    rdU32 (listSpace [0x00#8, 0xDE#8, 0xAD#8, 0xBE#8, 0xEF#8]) { c := 1, lim := 5 } = .ok 3735928559#32 { c := 5, lim := 5 } ∧
    rdU16 (listSpace [0x01#8, 0x02#8]) { c := 0, lim := 2 } = .ok 258#16 { c := 2, lim := 2 } ∧
    rdU16 (listSpace [0x01#8]) { c := 0, lim := 1 } = .raise .incompleteBuffer 0 ∧
    rdU8 (listSpace []) { c := 0, lim := 0 } = .raise .incompleteBuffer 0 := by decide

theorem test_text_valid :
    textOf .ascii alice = some [0x61#8, 0x6C#8, 0x69#8, 0x63#8, 0x65#8] ∧
    textOf .ascii (pad30 [0x61#8, 0x00#8, 0x62#8]) = some [0x61#8, 0x00#8, 0x62#8] ∧
    textOf .utf8 (pad30 [0xC3#8, 0xA9#8]) = some [0xC3#8, 0xA9#8] ∧
    textOf .utf8 (pad30 [0xF0#8, 0x9F#8, 0x98#8, 0x80#8]) = some [0xF0#8, 0x9F#8, 0x98#8, 0x80#8] := by decide

theorem test_text_invalid :
    validText .ascii (pad30 [0xC3#8, 0xA9#8]) = false ∧ validText .utf8 (pad30 [0xC0#8, 0xAF#8]) = false ∧
    validText .utf8 (pad30 [0xED#8, 0xA0#8, 0x80#8]) = false ∧
    validText .utf8 (pad30 [0xF4#8, 0x90#8, 0x80#8, 0x80#8]) = false ∧
    validText .utf8 (List.replicate 29 0x61#8 ++ [0xC3#8]) = false ∧
    validText .utf8 (pad30 [0x61#8, 0x00#8, 0xFF#8]) = false := by decide

/-! ## Records (95_test_vectors.md section 0: SL, RD, FT, CL) -/

theorem test_serverList :
    serverListRecord cfgT = [0xA8#8, 0x00#8, 0x2E#8, 0x5D#8, 0x00#8, 0x01#8, 0x00#8, 0x02#8, 0x54#8, 0x65#8, 0x73#8, 0x74#8,
      0x53#8, 0x68#8, 0x72#8, 0x64#8] ++ List.replicate 24 0x00#8 ++ [0x11#8, 0x22#8, 0x7F#8, 0x00#8, 0x00#8, 0x01#8] := by decide

theorem test_serverRedirect :
    serverRedirectRecord cfgT = [0x8C#8, 0x7F#8, 0x00#8, 0x00#8, 0x01#8, 0x0A#8, 0x21#8, 0xDE#8, 0xAD#8, 0xBE#8, 0xEF#8] := by
  decide

theorem test_featuresFrame : featuresFrame cfgT = [0xE0#8, 0x39#8, 0x60#8, 0x70#8] := by decide

theorem test_charListFrame :
    charListFrame cfgT = [0xE0#8, 0x29#8, 0x60#8, 0xCE#8, 0x00#8, 0x0E#8, 0x07#8, 0xF8#8] := by decide

/-! ## Packets and the sequencer (95_test_vectors.md sections 2.4 and 3) -/

/-- `A0 FF FF`: one step, the redirect queued, the index not checked. -/
theorem test_step_serverSelect :
    step (running [0xA0#8, 0xFF#8, 0xFF#8]) =
      .next { running [0xA0#8, 0xFF#8, 0xFF#8] with
        cur := 3, trace := [.serverSelect 65535#16], txq := [serverRedirectRecord Config.cfg] } := rfl

/-- `A0 FF`: cut, so IncompleteBuffer with the cursor at the opcode. -/
theorem test_step_cut : step (running [0xA0#8, 0xFF#8]) = .next { running [0xA0#8, 0xFF#8] with cause := 1#3, seq := .fault } := rfl

/-- `EF` and twenty `FF`. -/
theorem test_step_loginSeed :
    step (running (0xEF#8 :: List.replicate 20 0xFF#8)) =
      .next { running (0xEF#8 :: List.replicate 20 0xFF#8) with
        cur := 21
        trace := [.loginSeed 4294967295#32 4294967295#32 4294967295#32 4294967295#32 4294967295#32] } := rfl

/-- The account login of P3 alone in the buffer. -/
theorem test_exec_accountLogin :
    exec (.accountLogin alice secret 0#8) { State.reset with seq := .run, nRx := 62 } =
      .next { State.reset with
        seq := .run, nRx := 62, cur := 62
        trace := [.accountLogin [0x61#8, 0x6C#8, 0x69#8, 0x63#8, 0x65#8] [0x73#8, 0x65#8, 0x63#8, 0x72#8, 0x65#8, 0x74#8] 0#8]
        txq := [serverListRecord Config.cfg] } := rfl

/-- Two frames, features first. -/
theorem test_exec_postLogin :
    exec (.postLogin 0xDEADBEEF#32 alice secret) { State.reset with seq := .run, nRx := 65 } =
      .next { State.reset with
        seq := .run, nRx := 65, cur := 65
        trace := [.postLogin 0xDEADBEEF#32 [0x61#8, 0x6C#8, 0x69#8, 0x63#8, 0x65#8]
          [0x73#8, 0x65#8, 0x63#8, 0x72#8, 0x65#8, 0x74#8]]
        txq := [featuresFrame Config.cfg, charListFrame Config.cfg] } := rfl

/-! ## Commands (95_test_vectors.md section 2.5) -/

/-- The words `0x00010080` (after the pass of `73`), `0x00000012` (after `A0 FF`), `0x00000104` (after one ENC_PUT), and
`0x00030212` (45_sequencer.md R220's example). -/
theorem test_status :
    statusView { State.reset with cur := 1, unk := true } = 0x00010080#32 ∧
    statusView (faulted [0xA0#8, 0xFF#8]) = 0x00000012#32 ∧
    statusView (encoding { pv := 1#7, pb := 2#3, q := [0xD0#8] }) = 0x00000104#32 ∧
    statusView { faulted [] with cur := 3, txq := [[0x8C#8]] } = 0x00030212#32 := by decide

theorem test_exec_rdStatus :
    exec .rdStatus State.reset = .next { State.reset with resp := some (.ok (.status 0#32)) } ∧
    exec .rdStatus (running [0x73#8]) = .next { running [0x73#8] with resp := some .refused } := ⟨rfl, rfl⟩

theorem test_exec_txPop :
    exec .txPop State.reset = .next { State.reset with resp := some (.ok (.frame none)) } ∧
    exec .txPop { faulted [0xA0#8] with txq := [[0x8C#8]] } =
      .next { faulted [0xA0#8] with resp := some (.ok (.frame (some [0x8C#8]))) } := ⟨rfl, rfl⟩

/-- `RX_LOAD` with `n = 0` is refused in the reset state; RESET leaves the fault state. -/
theorem test_exec_rxLoad_reset :
    exec (.rxLoad 0#16 []) State.reset = .next { State.reset with resp := some .refused } ∧
    exec .reset (faulted [0xA0#8]) = .next { State.reset with resp := some (.ok .none) } := ⟨rfl, rfl⟩

/-- A pass over two packets, then its end (P5's shape): the step at the end leaves S_RUN. -/
theorem test_step_end : step { running [0x73#8] with cur := 1 } = .next { running [0x73#8] with cur := 1, seq := .idle } := rfl

/-! ## The hypotheses of the statements can be met

`test_witness_<Name>` shows, for `Obligations.<Name>`, a state and operands that meet the hypotheses together, clause by
clause where there are several. -/

/-- A sound state in `S_RUN`: one byte in the buffer, which every configuration admits. -/
theorem test_inv_running : (running [0xEF#8]).Inv where
  pending := by decide
  values := by decide
  cursor := by decide
  capacity := (rxcap_bounds Config.cfg).1
  causeFault := by decide
  causeKnown := by decide
  doneAligned := by decide
  idleEmpty := by decide
  frames := by decide

/-- The same byte after its fault: a sound state in `S_FAULT`. -/
theorem test_inv_faulted : (faulted [0xEF#8]).Inv where
  pending := by decide
  values := by decide
  cursor := by decide
  capacity := (rxcap_bounds Config.cfg).1
  causeFault := by decide
  causeKnown := by decide
  doneAligned := by decide
  idleEmpty := by decide
  frames := by decide

theorem test_witness_StepRunsTheDecodedCommand :
    (issuing 0x300000000061#48 [] State.reset).port = [.issue 0x300000000061#48 []] ∧
    decodeCommand 0x300000000061#48 [] = .ok (.encPut 0x61#8) := by decide

theorem test_witness_StepRunsTheDecodedPacket :
    let s := running [0xA0#8, 0x12#8, 0x34#8]
    s.seq = .run ∧ s.cur ≠ s.nRx ∧ decodePacket (rxRead s) s.cur s.nRx = .ok (.serverSelect 0x1234#16) ∧ s.port = [] ∧
    { s with port := [.hold] }.port = .hold :: [] := by decide

theorem test_witness_DecodeOfEncodeIsTheInstruction :
    (Instr.rxLoad 0#16 []).wf = true ∧ (Instr.accountLogin noText alice 0#8).wf = true ∧
    (Instr.postLogin 0#32 noText alice).wf = true ∧ (Instr.ignored 0xA9#8).wf = true ∧ Instr.charList.wf = true := by decide

theorem test_witness_EncodeOfDecodedCommandIsTheWord :
    decodeCommand 0x700000000001#48 [0x73#8] = .ok (.rxLoad 1#16 [0x73#8]) ∧
    decodeCommand 0x2FC0FFFFFFFF#48 [] = .ok (.writeBits 0xFFFFFFFF#32 63#6) := by decide

theorem test_witness_DecodedInstructionsAreWellFormed :
    decode (.packet [0x73#8]) = .ok (.ignored 0x73#8) ∧ decode (.record [0xB9#8]) = .ok .features ∧
    decode (.command 0x700000000001#48 [0x73#8]) = .ok (.rxLoad 1#16 [0x73#8]) := by decide

/-- One word for each of the six ways, the codes at the border of their ranges. -/
theorem test_witness_BadCommandWordsAreRefused :
    10 ≤ (commandFields 0xA00000000000#48).code.toNat ∧
    (commandFields 0x200100000000#48).reserved ≠ 0#6 ∧
    ((commandFields 0x304000000000#48).code ≠ 2#4 ∧ (commandFields 0x304000000000#48).n6 ≠ 0#6) ∧
    ((commandFields 0x300000000100#48).code = 3#4 ∧ (commandFields 0x300000000100#48).imm.extractLsb' 8 24 ≠ 0#24) ∧
    ((commandFields 0x700000010000#48).code = 7#4 ∧ (commandFields 0x700000010000#48).imm.extractLsb' 16 16 ≠ 0#16) ∧
    (let f := commandFields 0x900000000001#48
     f.code ≠ 2#4 ∧ f.code ≠ 3#4 ∧ f.code ≠ 7#4 ∧ f.imm ≠ 0#32) := by decide

theorem test_witness_EveryOtherOpcodeIsIgnored :
    listSpace [0xA8#8] 0 = some 0xA8#8 ∧ 0xA8#8 ∉ recognisedOpcodes := by decide

theorem test_witness_WriteBitsCornerCases :
    (let b : BitBuf := { pv := 0b1111111#7, pb := 7#3, q := [] }
     b.pv.toNat < 2 ^ b.pb.toNat ∧ b.pb.toNat = 7 ∧ (b.pb.toNat + 1) % 8 = 0) ∧
    (let b : BitBuf := { pv := 0b1010#7, pb := 4#3, q := [] }
     b.pv.toNat < 2 ^ b.pb.toNat ∧ b.pb.toNat + 3 < 8 ∧ (b.pb.toNat + 4) % 8 = 0) := by decide

theorem test_witness_QueueGrowthIsBounded : 32 ≤ 32 := by decide

theorem test_witness_WriteBitsCompletes :
    ((encoding BitBuf.empty).seq = .idle ∧ (encoding BitBuf.empty).ph = .active ∧ (32#6).toNat ≤ 32) ∧
    (running [0x73#8]).seq ≠ .idle ∧ State.reset.ph ≠ .active ∧ 32 < (33#6).toNat := by decide

theorem test_witness_WritesBeyond32BitsAreRefused : 32 < (33#6).toNat ∧ 32 < (63#6).toNat := by decide

theorem test_witness_ReadByteCompletes :
    (State.reset.seq = .idle ∧ State.reset.bb.q = []) ∧
    (let s := encoding { pv := 0#7, pb := 0#3, q := [0x5A#8] }
     s.seq = .idle ∧ s.bb.q = 0x5A#8 :: []) ∧
    (faulted [0xA0#8]).seq ≠ .idle := by decide

theorem test_witness_BbOffsetCompletes : State.reset.seq = .idle ∧ (running [0x73#8]).seq ≠ .idle := by decide

theorem test_witness_EncStartCompletes : State.reset.seq = .idle ∧ (faulted [0xA0#8]).seq ≠ .idle := by decide

theorem test_witness_EncPutCompletes :
    ((encoding BitBuf.empty).seq = .idle ∧ (encoding BitBuf.empty).ph = .active) ∧
    (running [0x73#8]).seq ≠ .idle ∧ State.reset.ph ≠ .active := by decide

theorem test_witness_EncFinishCompletes :
    ((encoding BitBuf.empty).seq = .idle ∧ (encoding BitBuf.empty).ph = .active) ∧
    (let s : State := { State.reset with ph := .done }
     s.seq = .idle ∧ s.ph = .done ∧ s.ph ≠ .active) := by decide

/-- `T_A` with `HTAB(0x41)` replaced by `(0xFE41, 9)`: corner case (b) of 95_test_vectors.md section 2.2. -/
theorem test_witness_HighCodeBitsAreIgnored :
    let cfg' : Cfg := { tA with htab := fun b => if b = 0x41#8 then { code := 0xFE41#16, lenPred := 8 } else tA.htab b }
    (∀ b, (tA.htab b).len = (cfg'.htab b).len ∧
      (tA.htab b).code.toNat % 2 ^ (tA.htab b).len = (cfg'.htab b).code.toNat % 2 ^ (tA.htab b).len) ∧
    tA.term.len = cfg'.term.len ∧ tA.term.code.toNat % 2 ^ tA.term.len = cfg'.term.code.toNat % 2 ^ tA.term.len := by
  refine ⟨fun b => ?_, rfl, rfl⟩
  by_cases h : b = 0x41#8
  · subst h; decide
  · simp [h]

/-- A streaming script whose reads after the ENC_FINISH are as many as the output's bytes. -/
theorem test_witness_StreamingEqualsBatch :
    let pre : List Instr := [.encPut 0x61#8, .readByte, .bbOffset, .encPut 0x6C#8]
    let post := List.replicate (compress Config.cfg (bytesPut pre)).length Instr.readByte
    State.reset.seq = .idle ∧ (∀ i ∈ pre, isProbe i = true ∨ ∃ b, i = .encPut b) ∧ (∀ i ∈ post, isProbe i = true) ∧
    (compress Config.cfg (bytesPut pre)).length ≤ (post.filter fun i => decide (i = .readByte)).length := by
  refine ⟨rfl, ?_, ?_, by simp⟩
  · intro i hi
    simp only [List.mem_cons, List.not_mem_nil, or_false] at hi
    rcases hi with rfl | rfl | rfl | rfl
    · exact .inr ⟨_, rfl⟩
    · exact .inl (by decide)
    · exact .inl (by decide)
    · exact .inr ⟨_, rfl⟩
  · intro i hi
    rw [List.eq_of_mem_replicate hi]
    decide

/-- Reading once more than there are bytes ends with `none`. -/
theorem test_drain_ends (q : List Byte) : ∀ s : State, s.seq = .idle → s.bb.q = q →
    ∃ t rs, runScript (drainScript q.length ++ [.readByte]) s = some (t, rs) ∧
      rs.getLast? = some (.ok (.byte none)) := by
  induction q with
  | nil =>
    intro s hs hq
    refine ⟨{ s with resp := some (.ok (.byte none)) }, [.ok (.byte none)], ?_, rfl⟩
    simp [drainScript, runScript, exec, execReadByte, hs, hq, complete]
  | cons b q ih =>
    intro s hs hq
    obtain ⟨t, rs, hrun, hlast⟩ :=
      ih { s with bb := { s.bb with q := q }, resp := some (.ok (.byte (some b))) } hs rfl
    refine ⟨t, .ok (.byte (some b)) :: rs, ?_, by simp [List.getLast?_cons, hlast]⟩
    simp only [drainScript, hs] at hrun
    simp [drainScript, List.replicate_succ, runScript, exec, execReadByte, hs, hq, complete, hrun]

/-- The clause of StreamingEqualsBatch about a last READ_BYTE that answers `none`: such a script. -/
theorem test_witness_StreamingEqualsBatch_none :
    ∃ t rs, runScript ([.encStart] ++ [] ++ [.encFinish] ++
        drainScript (finishStream Config.cfg BitBuf.empty).q.length ++ [.readByte]) State.reset = some (t, rs) ∧
      rs.getLast? = some (.ok (.byte none)) := by
  obtain ⟨t, rs, hrun, hlast⟩ := test_drain_ends (finishStream Config.cfg BitBuf.empty).q
    { State.reset with ph := .done, bb := finishStream Config.cfg BitBuf.empty, resp := some (.ok .none) } rfl rfl
  refine ⟨t, .ok .none :: .ok .none :: rs, ?_, by simp [List.getLast?_cons, hlast]⟩
  simp [runScript, exec, execEncStart, execEncFinish, complete, State.reset] at hrun ⊢
  exact hrun

/-- `T_A` has the prefix property: 9-bit codes that begin with 0, and the terminal code 1. -/
theorem test_witness_CompressionRoundTrip : PrefixCode tA := by
  have hsym : ∀ b : Byte, symbolBits tA (some b) = codeBits b.toNat 9 := fun b => by
    simp [symbolBits, tableBits, tA, TableEntry.len, Nat.mod_eq_of_lt (show b.toNat < 65536 by omega)]
  have hfalse : ∀ b : Byte, ∃ l, codeBits b.toNat 9 = false :: l := fun b => by
    refine ⟨codeBits b.toNat 8, ?_⟩
    rw [show (9 : Nat) = 1 + 8 from rfl, codeBits_append]
    simp [codeBits]
    omega
  intro x y h
  cases x with
  | none =>
    cases y with
    | none => rfl
    | some b =>
      obtain ⟨l, hl⟩ := hfalse b
      rw [hsym, hl] at h
      exact absurd h (by simp [symbolBits, termBits, tA, TerminalEntry.len, codeBits])
  | some a =>
    cases y with
    | none =>
      have := h.length_le
      rw [hsym, codeBits_length] at this
      exact absurd this (by decide)
    | some b =>
      rw [hsym, hsym] at h
      have he := h.eq_of_length (by rw [codeBits_length, codeBits_length])
      refine congrArg some (BitVec.eq_of_getLsbD_eq fun i hi => ?_)
      have hb := congrArg (fun l => l[8 - i]?) he
      simp only [codeBits, List.getElem?_map, List.getElem?_range (show 8 - i < 9 by omega), Option.map_some,
        Option.some.injEq] at hb
      rw [show 9 - 1 - (8 - i) = i by omega] at hb
      exact hb

/-- A field at each width that ends exactly at the limit, at an odd offset. -/
theorem test_witness_FieldReadsAreBigEndian :
    let rd := listSpace [0x00#8, 0xDE#8, 0xAD#8, 0xBE#8, 0xEF#8]
    rd 1 = some 0xDE#8 ∧ 1 + 1 ≤ 2 ∧ 1 + 2 ≤ 3 ∧ rd (1 + 1) = some 0xAD#8 ∧ 1 + 4 ≤ 5 ∧ rd (1 + 2) = some 0xBE#8 ∧
    rd (1 + 3) = some 0xEF#8 := by decide

/-- One byte too few for each width. -/
theorem test_witness_FieldReadsCheckBeforeReading :
    (let x : Ctx := { c := 5, lim := 5 }
     x.lim - x.c < 1) ∧
    (let x : Ctx := { c := 5, lim := 6 }
     x.lim - x.c < 2) ∧
    (let x : Ctx := { c := 5, lim := 8 }
     x.lim - x.c < 4) := by decide

theorem test_witness_StringReadsValidateThenTrim :
    34 - 5 < 30 ∧ alice.length = 30 ∧ noText.length = 30 ∧ 0 + 30 ≤ 30 ∧ (∀ k, k < 30 → listSpace alice (0 + k) = alice[k]?) ∧
    (∀ k, k < 30 → listSpace noText (0 + k) = noText[k]?) ∧ validText .ascii alice = true ∧
    validText .utf8 noText = false := by decide

theorem test_witness_TrimIsTheLongestUnpaddedBeginning :
    [0x61#8, 0x00#8, 0x62#8] <+: pad30 [0x61#8, 0x00#8, 0x62#8] ∧
    [0x61#8, 0x00#8, 0x62#8].getLast? ≠ some 0x00#8 := by decide

theorem test_witness_LoginSeedCompletes :
    let s : State := { State.reset with seq := .run, cur := 3, nRx := 24 }
    let cut : State := { s with nRx := 23 }
    s.seq = .run ∧ s.cur + 21 ≤ s.nRx ∧ cut.seq = .run ∧ cut.nRx < cut.cur + 21 := by decide

/-- ASCII text is valid under either check. -/
theorem test_valid_alice (check : TextCheck) : validText check alice = true ∧ validText check secret = true := by
  cases check <;> decide

/-- `FF` is in no text. -/
theorem test_invalid_noText (check : TextCheck) : validText check noText = false := by
  cases check <;> decide

/-- A fitting packet, one cut by a byte, and a bad second string behind a good first one. -/
theorem test_witness_AccountLoginCompletes :
    let s : State := { State.reset with seq := .run, nRx := 62 }
    let cut : State := { s with nRx := 61 }
    s.seq = .run ∧ s.cur + 62 ≤ s.nRx ∧
    (validText Config.cfg.textCheck alice = true ∧ validText Config.cfg.textCheck secret = true) ∧
    cut.seq = .run ∧ cut.nRx < cut.cur + 62 ∧ validText Config.cfg.textCheck noText = false :=
  ⟨rfl, by decide, test_valid_alice _, rfl, by decide, test_invalid_noText _⟩

theorem test_witness_ServerSelectCompletes :
    let s := running [0xA0#8, 0xFF#8, 0xFF#8]
    let cut := running [0xA0#8, 0xFF#8]
    s.seq = .run ∧ s.cur + 3 ≤ s.nRx ∧ cut.seq = .run ∧ cut.nRx < cut.cur + 3 := by decide

/-- A fitting packet, one cut by a byte, and a bad first string. -/
theorem test_witness_PostLoginCompletes :
    let s : State := { State.reset with seq := .run, nRx := 65 }
    let cut : State := { s with nRx := 64 }
    s.seq = .run ∧ s.cur + 65 ≤ s.nRx ∧
    (validText Config.cfg.textCheck alice = true ∧ validText Config.cfg.textCheck secret = true) ∧
    cut.seq = .run ∧ cut.nRx < cut.cur + 65 ∧ validText Config.cfg.textCheck noText = false :=
  ⟨rfl, by decide, test_valid_alice _, rfl, by decide, test_invalid_noText _⟩

/-- A body that ends with the buffer, and a buffer that ends before the opcode. -/
theorem test_witness_IgnoredCompletes :
    let s : State := { State.reset with seq := .run, nRx := 1 + Config.cfg.ignLen 0x73#8 }
    let cut : State := { s with nRx := Config.cfg.ignLen 0x73#8 }
    s.seq = .run ∧ s.cur + 1 + Config.cfg.ignLen 0x73#8 ≤ s.nRx ∧ cut.seq = .run ∧
    cut.nRx < cut.cur + 1 + Config.cfg.ignLen 0x73#8 :=
  ⟨rfl, by simp [State.reset], rfl, by simp [State.reset]⟩

/-- The host's two ways to hold, in the statements about the instance's own moves. -/
theorem test_hostHolds :
    hostHolds [] = true ∧ hostHolds [.hold, .issue 0x800000000000#48 []] = true ∧
    hostHolds [.issue 0x800000000000#48 [], .hold] = false := by decide

/-- A running instance whose host holds for one step and then pops a frame. -/
def holding (bs : List Byte) : State := { running bs with port := [.hold, .issue 0x800000000000#48 []] }

/-- The same sound state with the host's moves still to come. -/
theorem test_inv_holding : (holding [0xEF#8]).Inv := inv_port test_inv_running _

/-- A sequencer step that faults, and a command in `S_FAULT`. -/
theorem test_witness_FaultEntryWritesCauseAndSeqAlone :
    (let s := holding [0xEF#8]
     s.seq = .run ∧ hostHolds s.port = true ∧ ∃ t, step s = .next t ∧ t.seq = .fault) ∧
    (layer .txPop = .command ∧ ∃ t, exec .txPop (faulted [0xEF#8]) = .next t ∧ t.seq = .fault) :=
  ⟨⟨rfl, rfl, _, rfl, rfl⟩, ⟨rfl, _, rfl, rfl⟩⟩

/-- One byte short: a server select of two bytes, and a lone login opcode. -/
theorem test_witness_CutPacketsFault :
    (let s := running [0xA0#8, 0xFF#8]
     s.seq = .run ∧ hostHolds s.port = true ∧ s.cur < s.nRx ∧ rxRead s s.cur = some 0xA0#8 ∧
     s.nRx - s.cur - 1 < bodyLen Config.cfg 0xA0#8) ∧
    (let s := holding [0xEF#8]
     s.seq = .run ∧ hostHolds s.port = true ∧ s.cur < s.nRx ∧ rxRead s s.cur = some 0xEF#8 ∧
     s.nRx - s.cur - 1 < bodyLen Config.cfg 0xEF#8) := by decide

theorem test_witness_SequencerStepIsTheSpecsPseudocode :
    (holding [0xEF#8]).Inv ∧ (holding [0xEF#8]).seq = .run ∧ hostHolds (holding [0xEF#8]).port = true :=
  ⟨test_inv_holding, rfl, rfl⟩

theorem test_witness_EndOfPass :
    (let s : State := { running [0x73#8] with cur := 1 }
     s.seq = .run ∧ s.cur = s.nRx ∧ hostHolds s.port = true) ∧
    (let s : State := { holding [0x73#8] with cur := 1 }
     s.seq = .run ∧ s.cur = s.nRx ∧ hostHolds s.port = true) := by decide

/-- A packet that commits, one that faults, an ignored opcode, and a record. -/
theorem test_witness_PacketAndRecordFrame :
    (layer (.serverSelect 2#16) ≠ .command ∧
      ∃ t, exec (.serverSelect 2#16) (running [0xA0#8, 0x00#8, 0x02#8]) = .next t ∧ t.seq ≠ .fault) ∧
    (layer (.serverSelect 2#16) ≠ .command ∧
      ∃ t, exec (.serverSelect 2#16) (running [0xA0#8, 0x00#8]) = .next t ∧ t.seq = .fault) ∧
    (layer .serverList = .record ∧ ∃ t, exec .serverList (running [0x73#8]) = .next t) ∧
    (layer (.ignored 0x73#8) ≠ .command ∧ ∃ t, exec (.ignored 0x73#8) (running [0x73#8]) = .next t) :=
  ⟨⟨by decide, _, rfl, by decide⟩, ⟨by decide, _, rfl, rfl⟩, ⟨rfl, _, rfl⟩, ⟨by decide, _, rfl⟩⟩

theorem test_witness_EveryRunStepMakesProgress :
    (holding [0xEF#8]).Inv ∧ (holding [0xEF#8]).seq = .run ∧ hostHolds (holding [0xEF#8]).port = true :=
  ⟨test_inv_holding, rfl, rfl⟩

/-- No move left, and two holds, exactly as many as the pass can take, before a TX_POP. -/
theorem test_witness_EveryPassEnds :
    ((running [0xEF#8]).Inv ∧ (running [0xEF#8]).seq = .run ∧
      ∀ m ∈ (running [0xEF#8]).port.take ((running [0xEF#8]).nRx - (running [0xEF#8]).cur + 1), m = .hold) ∧
    (let s : State := { running [0xEF#8] with port := [.hold, .hold, .issue 0x800000000000#48 []] }
     s.Inv ∧ s.seq = .run ∧ ∀ m ∈ s.port.take (s.nRx - s.cur + 1), m = .hold) :=
  ⟨⟨test_inv_running, rfl, by decide⟩, inv_port test_inv_running _, rfl, by decide⟩

theorem test_witness_ResponsesFollowTheDispatchTable :
    layer (.serverSelect 2#16) = .packet ∧
    ∃ t, exec (.serverSelect 2#16) (running [0xA0#8, 0x00#8, 0x02#8]) = .next t ∧ t.seq = .run :=
  ⟨rfl, _, rfl, rfl⟩

theorem test_witness_RecordsAreEnqueuedWhole : (running [0x73#8]).seq = .run := by decide

/-- The two ends of the range of `n` (the rest of a load's hypotheses in `State.reset`), and the refused `n` below it and, where 16 bits hold it, above it. -/
theorem test_witness_RxLoadCompletes :
    ([0x73#8].length = (1#16).toNat ∧ State.reset.seq = .idle ∧ 1 ≤ (1#16).toNat ∧ (1#16).toNat ≤ Config.cfg.rxcap) ∧
    (let n := BitVec.ofNat 16 Config.cfg.rxcap
     (List.replicate Config.cfg.rxcap 0#8).length = n.toNat ∧ 1 ≤ n.toNat ∧ n.toNat ≤ Config.cfg.rxcap) ∧
    (([] : List Byte).length = (0#16).toNat ∧ (0#16).toNat = 0) ∧ (running [0x73#8]).seq ≠ .idle ∧
    (Config.cfg.rxcap < 65535 → Config.cfg.rxcap < (BitVec.ofNat 16 (Config.cfg.rxcap + 1)).toNat) := by
  have h := rxcap_bounds Config.cfg
  have hn : (BitVec.ofNat 16 Config.cfg.rxcap).toNat = Config.cfg.rxcap := by
    rw [BitVec.toNat_ofNat]; omega
  refine ⟨⟨rfl, rfl, by decide, h.1⟩, ⟨by simp [hn], by omega, by omega⟩, ⟨rfl, rfl⟩, by decide, fun hlt => ?_⟩
  rw [BitVec.toNat_ofNat]
  omega

theorem test_witness_TxPopCompletes :
    (State.reset.seq = .idle ∧ State.reset.txq = []) ∧
    (let s : State := { faulted [0xA0#8] with txq := [[0x8C#8]] }
     s.seq = .fault ∧ s.txq = [0x8C#8] :: []) ∧
    (running [0x73#8]).seq = .run := by decide

theorem test_witness_RdStatusCompletes :
    (State.reset.seq = .idle ∧ State.reset.cur < 65536) ∧
    (let s : State := { faulted [0xA0#8] with cur := 65535 }
     s.seq = .fault ∧ s.cur < 65536) ∧
    (running [0x73#8]).seq = .run := by decide

/-- Accepted and refused. -/
theorem test_witness_AcceptanceMatrixDecides :
    (layer (.encPut 0x61#8) = .command ∧ (Instr.encPut 0x61#8).wf = true) ∧
    accepted cfgT (.encPut 0x61#8) (encoding BitBuf.empty) = true ∧
    accepted cfgT (.encPut 0x61#8) State.reset = false := by decide

theorem test_witness_CommandFrame :
    (layer .readByte = .command ∧ Instr.readByte ≠ .reset ∧ (∀ n data, Instr.readByte ≠ .rxLoad n data) ∧
      ∃ t, exec .readByte (encoding { pv := 1#7, pb := 1#3, q := [0x5A#8] }) = .next t) ∧
    (layer .txPop = .command ∧ ∃ t, exec .txPop State.reset = .next t) ∧
    (layer .encFinish = .command ∧ ∃ t, exec .encFinish (encoding BitBuf.empty) = .next t) :=
  ⟨⟨rfl, by decide, by simp, _, rfl⟩, ⟨rfl, _, rfl⟩, ⟨rfl, _, rfl⟩⟩

theorem test_witness_IdleInstancesWait :
    (State.reset.seq ≠ .run ∧ hostHolds State.reset.port = true) ∧
    (let s : State := { faulted [0xA0#8] with port := [.hold, .issue 0x800000000000#48 []] }
     s.seq ≠ .run ∧ hostHolds s.port = true) := by decide

theorem test_witness_EveryStepKeepsTheInvariants :
    (running [0xEF#8]).Inv ∧ step (running [0xEF#8]) = .next (faulted [0xEF#8]) := ⟨test_inv_running, rfl⟩

theorem test_witness_SoundReceiveBuffer : (running [0xEF#8]).Inv ∧ (faulted [0xEF#8]).Inv := ⟨test_inv_running, test_inv_faulted⟩

/-- A sound state whose host is about to issue a sound RX_LOAD. -/
theorem test_witness_SoundStepsNeverStop :
    (issuing 0x700000000001#48 [0x73#8] (faulted [0xEF#8])).Inv ∧
    (issuing 0x700000000001#48 [0x73#8] (faulted [0xEF#8])).PortSound := by
  refine ⟨inv_port test_inv_faulted _, ?_⟩
  intro w data hm n given
  simp only [issuing, List.mem_cons, List.not_mem_nil, or_false, HostMove.issue.injEq] at hm
  obtain ⟨rfl, rfl⟩ := hm
  rw [show decodeCommand 0x700000000001#48 [0x73#8] = .ok (.rxLoad 1#16 [0x73#8]) from by decide]
  simp

/-- A command that is refused, and RESET. -/
theorem test_witness_OnlyResetLeavesTheFaultState :
    (faulted [0xEF#8]).seq = .fault ∧
    (∃ t, step (issuing 0x500000000000#48 [] (faulted [0xEF#8])) = .next t ∧ t.seq = .fault) ∧
    (∃ t, step (issuing 0x000000000000#48 [] (faulted [0xEF#8])) = .next t ∧ t.seq = .idle) :=
  ⟨rfl, ⟨_, rfl, rfl⟩, ⟨_, rfl, rfl⟩⟩

/-- A sequencer step, and RESET during a pass. -/
theorem test_witness_ReceiveBufferIsFrozenDuringAPass :
    (running [0xEF#8]).seq = .run ∧ (∃ t, step (running [0xEF#8]) = .next t ∧ t.nRx = 1) ∧
    (∃ t, step (issuing 0x000000000000#48 [] (running [0xEF#8])) = .next t ∧ t.nRx = 0) :=
  ⟨rfl, ⟨_, rfl, rfl⟩, ⟨_, rfl, rfl⟩⟩

end Sys2Proof.Tests
end

section
/-! SUPPORT. What a command, a packet and a record can do, said once each: a command either carries out its effect or is
refused (45_sequencer.md R217), a packet commits or faults (R211), a record pushes its frame (44_packets_outbound.md
R194). -/

namespace Sys2Proof.Machine

/-! ## Commands -/

/-- What an accepted command does to the state, its response left out (40_bitbuffer.md, 41_huffman_encoder.md,
45_sequencer.md). `exec_accepted` ties it to `exec`. -/
def commandEffect (i : Instr) (s : State) : State :=
  match i with
  | .reset => restart s
  | .encStart => { s with bb := BitBuf.empty, ph := .active }
  | .writeBits value bitCount => { s with bb := wb s.bb value.toNat bitCount.toNat }
  | .encPut byte => { s with bb := putByte Config.cfg s.bb byte }
  | .encFinish => { s with bb := finishStream Config.cfg s.bb, ph := .done }
  | .readByte => { s with bb := { s.bb with q := s.bb.q.tail } }
  | .rxLoad _ data => loadRx data s
  | .txPop => { s with txq := s.txq.tail }
  | .bbOffset | .rdStatus => s
  | .loginSeed _ _ _ _ _ | .accountLogin _ _ _ | .serverSelect _ | .postLogin _ _ _ | .ignored _ => s
  | .serverList | .serverRedirect | .features | .charList => s

/-- READ_BYTE as one equation: it answers the front of `q` and leaves the rest, also of an empty `q`. -/
theorem execReadByte_idle {s : State} (h : s.seq = .idle) :
    execReadByte s = complete (.byte s.bb.q.head?) { s with bb := { s.bb with q := s.bb.q.tail } } := by
  obtain ⟨⟨pv, pb, q⟩, ph, rx, nRx, cur, seq, cause, unk, txq, trace, resp, port⟩ := s
  cases q <;> exact if_pos h

/-- TX_POP as one equation: it answers the front of `txq` and leaves the rest, also of an empty `txq`. -/
theorem execTxPop_of_ne_run {s : State} (h : s.seq ≠ .run) :
    execTxPop s = complete (.frame s.txq.head?) { s with txq := s.txq.tail } := by
  obtain ⟨bb, ph, rx, nRx, cur, seq, cause, unk, txq, trace, resp, port⟩ := s
  cases txq <;> exact if_neg h

/-- The rows of the acceptance matrix that accept in `S_IDLE` and `S_FAULT` turn away in `S_RUN` alone. -/
theorem idle_or_fault_iff (q : SeqState) : q = .idle ∨ q = .fault ↔ q ≠ .run := by
  cases q <;> decide

/-- A command that the acceptance matrix accepts carries out its effect (45_sequencer.md R217). -/
theorem exec_accepted {i : Instr} {s : State} (hl : layer i = .command) (hw : i.wf = true)
    (ha : accepted Config.cfg i s = true) : ∃ r, exec i s = complete r (commandEffect i s) := by
  cases i with
  | reset => exact ⟨_, rfl⟩
  | encStart | writeBits _ _ | encPut _ | encFinish | bbOffset => exact ⟨_, if_pos (of_decide_eq_true ha)⟩
  | readByte => exact ⟨_, execReadByte_idle (of_decide_eq_true ha)⟩
  | rxLoad n data => exact ⟨_, (if_pos (eq_of_beq hw)).trans (if_pos (of_decide_eq_true ha))⟩
  | txPop => exact ⟨_, execTxPop_of_ne_run ((idle_or_fault_iff _).mp (of_decide_eq_true ha))⟩
  | rdStatus => exact ⟨_, if_neg ((idle_or_fault_iff _).mp (of_decide_eq_true ha))⟩
  | _ => cases hl

/-- A command that the acceptance matrix turns away is refused (45_sequencer.md R217). -/
theorem exec_not_accepted {i : Instr} {s : State} (hl : layer i = .command) (hw : i.wf = true)
    (ha : accepted Config.cfg i s = false) : exec i s = refuse s := by
  cases i with
  | reset => cases ha
  | encStart | writeBits _ _ | encPut _ | encFinish | readByte | bbOffset => exact if_neg (of_decide_eq_false ha)
  | rxLoad n data => exact (if_pos (eq_of_beq hw)).trans (if_neg (of_decide_eq_false ha))
  | txPop | rdStatus =>
    have hrun := of_decide_eq_false ha
    rw [idle_or_fault_iff, not_not] at hrun
    exact if_pos hrun
  | _ => cases hl

/-- A command that does not stop carries the data bytes of its word (45_sequencer.md R210). -/
theorem wf_of_exec_command {i : Instr} {s t : State} (hl : layer i = .command) (h : exec i s = .next t) :
    i.wf = true := by
  cases i with
  | rxLoad n data =>
    by_contra hw
    have hstop : exec (.rxLoad n data) s = .fault (.dataCount n.toNat data.length) :=
      if_neg fun hlen => hw (beq_iff_eq.mpr hlen)
    rw [hstop] at h
    cases h
  | reset | encStart | writeBits _ _ | encPut _ | encFinish | readByte | bbOffset | txPop | rdStatus => rfl
  | _ => cases hl

/-- All a command that does not stop can do: it is accepted and carries out its effect, or only `resp` changes. -/
theorem exec_command_cases {i : Instr} {s t : State} (hl : layer i = .command) (h : exec i s = .next t) :
    (i.wf = true ∧ accepted Config.cfg i s = true ∧ ∃ r, t = { commandEffect i s with resp := some (.ok r) }) ∨
    t = { s with resp := some .refused } := by
  have hw := wf_of_exec_command hl h
  cases ha : accepted Config.cfg i s with
  | true =>
    obtain ⟨r, hr⟩ := exec_accepted hl hw ha
    rw [hr, complete_eq] at h
    cases h
    exact .inl ⟨hw, rfl, r, rfl⟩
  | false =>
    rw [exec_not_accepted hl hw ha, refuse_eq] at h
    cases h
    exact .inr rfl

/-! ## Packets and records -/

/-- An ACCOUNT_LOGIN whose strings are valid text is answered by the server list (43_packets_inbound.md R171). -/
theorem accountLoginBodyOf_ok {cfg : Cfg} {username password : List Byte} {tail : Byte} {e : PacketEffect}
    (h : accountLoginBodyOf cfg username password tail = .ok e) :
    e.frames = [serverListRecord cfg] ∧ e.skips = false := by
  unfold accountLoginBodyOf at h
  split at h
  · cases h
  · split at h <;> cases h
    exact ⟨rfl, rfl⟩

/-- A POST_LOGIN whose strings are valid text is answered by the two compressed records (43_packets_inbound.md R173). -/
theorem postLoginBodyOf_ok {cfg : Cfg} {key : BitVec 32} {str0 str1 : List Byte} {e : PacketEffect}
    (h : postLoginBodyOf cfg key str0 str1 = .ok e) :
    e.frames = [featuresFrame cfg, charListFrame cfg] ∧ e.skips = false := by
  unfold postLoginBodyOf at h
  split at h
  · cases h
  · split at h <;> cases h
    exact ⟨rfl, rfl⟩

/-- Every packet is a packet step whose rule answers with its row of the dispatch table (45_sequencer.md R214); only an
ignored opcode sets `unk` (43_packets_inbound.md R174). -/
theorem exec_packet {i : Instr} (hl : layer i = .packet) (s : State) :
    ∃ len body, exec i s = packetStep len body s ∧
      ∀ e, body = .ok e → e.frames = responsesOf Config.cfg i ∧ ((∀ op, i ≠ .ignored op) → e.skips = false) := by
  cases i with
  | loginSeed _ _ _ _ _ | serverSelect _ => exact ⟨_, _, rfl, by rintro e ⟨⟩; exact ⟨rfl, fun _ => rfl⟩⟩
  | ignored op => exact ⟨_, _, rfl, by rintro e ⟨⟩; exact ⟨rfl, fun hn => absurd rfl (hn op)⟩⟩
  | accountLogin _ _ _ => exact ⟨_, _, rfl, fun e he => (accountLoginBodyOf_ok he).imp_right fun h _ => h⟩
  | postLogin _ _ _ => exact ⟨_, _, rfl, fun e he => (postLoginBodyOf_ok he).imp_right fun h _ => h⟩
  | _ => cases hl

/-- All a packet that answers a next state can do, while the sequencer runs: it faults, or it fits and commits. -/
theorem exec_packet_cases {i : Instr} {s t : State} (hl : layer i = .packet) (h : exec i s = .next t) :
    s.seq = .run ∧
    ((∃ f, t = takeFault f s) ∨
      ∃ len e, s.cur + 1 + len ≤ s.nRx ∧ e.frames = responsesOf Config.cfg i ∧
        ((∀ op, i ≠ .ignored op) → e.skips = false) ∧ t = commit len e s) := by
  obtain ⟨len, body, hexec, hbody⟩ := exec_packet hl s
  rw [hexec, packetStep_next_iff] at h
  obtain ⟨hrun, rfl⟩ := h
  refine ⟨hrun, ?_⟩
  rcases packetState_cases len body s with ⟨-, ht⟩ | ⟨-, f, -, ht⟩ | ⟨hfit, e, he, ht⟩
  · exact .inl ⟨_, ht⟩
  · exact .inl ⟨f, ht⟩
  · obtain ⟨hframes, hskips⟩ := hbody e he
    exact .inr ⟨len, e, hfit, hframes, hskips, ht⟩

/-- Every record sends its one frame of `responsesOf` (44_packets_outbound.md R190 to R194). -/
theorem exec_record {i : Instr} (hl : layer i = .record) (s : State) :
    ∃ f, responsesOf Config.cfg i = [f] ∧ exec i s = sendRecord f s := by
  cases i with
  | serverList | serverRedirect | features | charList => exact ⟨_, rfl, rfl⟩
  | _ => cases hl

/-- All a record that answers a next state can do: its frame is pushed, while the sequencer runs. -/
theorem exec_record_cases {i : Instr} {s t : State} (hl : layer i = .record) (h : exec i s = .next t) :
    s.seq = .run ∧ ∃ f, responsesOf Config.cfg i = [f] ∧ t = pushFrame f s := by
  obtain ⟨f, hf, hexec⟩ := exec_record hl s
  rw [hexec, sendRecord_next_iff] at h
  obtain ⟨hrun, ht⟩ := h
  exact ⟨hrun, f, hf, ht⟩

/-- Packets and records run in `S_RUN` only (45_sequencer.md R211, 44_packets_outbound.md R195). -/
theorem seq_run_of_exec_next {i : Instr} {s t : State} (hl : layer i ≠ .command) (h : exec i s = .next t) :
    s.seq = .run := by
  cases hi : layer i with
  | command => exact absurd hi hl
  | packet => exact (exec_packet_cases hi h).1
  | record => exact (exec_record_cases hi h).1

end Sys2Proof.Machine
end

section
/-! SUPPORT. All that a step can do, said once (45_sequencer.md R218). -/

namespace Sys2Proof.Machine

/-- The ways a step from `s` to a next state comes about: a host command that is run or refused; otherwise the host
holds, and the machine waits, ends the pass, faults on a packet that does not fit, or runs the packet at `cur`. -/
inductive StepWay (s : State) : State → Prop
  | command {w : CommandWord} {data : List Byte} {rest : List HostMove} {i : Instr} {t : State}
      (hport : s.port = .issue w data :: rest) (hdecode : decodeCommand w data = .ok i)
      (hexec : exec i { s with port := rest } = .next t) : StepWay s t
  | refused {w : CommandWord} {data : List Byte} {rest : List HostMove}
      (hport : s.port = .issue w data :: rest) : StepWay s { s with port := rest, resp := some .refused }
  | waits (hhold : hostHolds s.port = true) (hseq : s.seq ≠ .run) : StepWay s { s with port := s.port.tail }
  | passEnds (hhold : hostHolds s.port = true) (hseq : s.seq = .run) (hcur : s.cur = s.nRx) :
      StepWay s (endPass { s with port := s.port.tail })
  | packetCut (hhold : hostHolds s.port = true) (hseq : s.seq = .run) :
      StepWay s (takeFault .incompleteBuffer { s with port := s.port.tail })
  | packet {i : Instr} {t : State} (hhold : hostHolds s.port = true) (hseq : s.seq = .run)
      (hdecode : decodePacket (rxRead s) s.cur s.nRx = .ok i)
      (hexec : exec i { s with port := s.port.tail } = .next t) : StepWay s t

theorem step_of_run {s u : State} {i : Instr} (h : nextWork s = .run i u) : step s = exec i u := by
  simp only [step, h]

theorem step_of_settled {s : State} {o : Outcome} (h : nextWork s = .settled o) : step s = o := by
  simp only [step, h]

/-- The host either issues a command or holds. -/
theorem issues_or_holds (p : List HostMove) :
    (∃ w data rest, p = .issue w data :: rest) ∨ hostHolds p = true := by
  match p with
  | [] | .hold :: _ => exact .inr rfl
  | .issue w data :: rest => exact .inl ⟨w, data, rest, rfl⟩

/-- The sequencer's move in `S_RUN`: the pass ends, the packet at `cur` runs, a byte without a value is asked for, or
the packet at `cur` does not fit. -/
theorem packetWork_cases (s : State) :
    (s.cur = s.nRx ∧ packetWork s = .settled (.next (endPass s))) ∨
    (∃ i, decodePacket (rxRead s) s.cur s.nRx = .ok i ∧ packetWork s = .run i s) ∨
    (∃ a, packetWork s = .settled (.fault (.rxNoValue a))) ∨
    packetWork s = .settled (.next (takeFault .incompleteBuffer s)) := by
  unfold packetWork
  split
  · exact .inl ⟨‹_›, rfl⟩
  · split
    · exact .inr (.inl ⟨_, ‹_›, rfl⟩)
    · exact .inr (.inr (.inl ⟨_, rfl⟩))
    · exact .inr (.inr (.inr rfl))

/-- A step after which the machine goes on came about in one of the ways of `StepWay`. -/
theorem stepWay_of_step {s t : State} (h : step s = .next t) : StepWay s t := by
  rcases issues_or_holds s.port with ⟨w, data, rest, hport⟩ | hhold
  · have hnext := nextWork_issue hport
    rcases commandWork_cases w data { s with port := rest } with
      ⟨i, hdecode, hwork⟩ | ⟨n, given, -, hwork⟩ | ⟨e, -, hwork⟩
    · rw [step_of_run (hnext.trans hwork)] at h
      exact .command hport hdecode h
    · rw [step_of_settled (hnext.trans hwork)] at h
      cases h
    · rw [step_of_settled (hnext.trans hwork), refuse_eq] at h
      cases h
      exact .refused hport
  · have hnext := nextWork_hostHolds hhold
    by_cases hseq : s.seq = .run
    · replace hnext := hnext.trans (if_pos hseq)
      rcases packetWork_cases { s with port := s.port.tail } with
        ⟨hcur, hwork⟩ | ⟨i, hdecode, hwork⟩ | ⟨a, hwork⟩ | hwork
      · rw [step_of_settled (hnext.trans hwork)] at h
        cases h
        exact .passEnds hhold hseq hcur
      · rw [step_of_run (hnext.trans hwork)] at h
        exact .packet hhold hseq hdecode h
      · rw [step_of_settled (hnext.trans hwork)] at h
        cases h
      · rw [step_of_settled (hnext.trans hwork)] at h
        cases h
        exact .packetCut hhold hseq
    · rw [step_of_settled (hnext.trans (if_neg hseq))] at h
      cases h
      exact .waits hhold hseq

end Sys2Proof.Machine
end

section
/-! SUPPORT. No frame that the block sends is empty (10_state.md R39 (vii)). -/

namespace Sys2Proof.Machine

/-- Writing into a record never changes its size (42_field_codec.md R161). -/
@[simp] theorem wrBytes_length (s : List Byte) : ∀ (B : List Byte) (a : Nat), (wrBytes B a s).length = B.length := by
  induction s with
  | nil => exact fun _ _ => rfl
  | cons v s ih => exact fun B a => (ih _ _).trans List.length_set

/-- `q` grows by the completed bytes (40_bitbuffer.md R113). -/
theorem wb_q_length (b : BitBuf) (value n : Nat) :
    (wb b value n).q.length = b.q.length + (b.pb.toNat + n) / 8 := by
  simp [wb_q]

/-- The terminal code has at least one bit, so padding to the byte boundary completes a byte (00_scope.md R6 (b),
41_huffman_encoder.md R132). -/
theorem finishStream_q_ne_nil (cfg : Cfg) (b : BitBuf) : (finishStream cfg b).q ≠ [] := by
  have hterm := (terminalEntry_len_bounds cfg.term).1
  rw [← List.length_pos_iff, finishStream, wb_q_length, boundaryOffset_eq, wb_q_length, wb_pb]
  omega

/-- A compressed message has at least one byte (41_huffman_encoder.md R134). -/
theorem compress_ne_nil (cfg : Cfg) (input : List Byte) : compress cfg input ≠ [] :=
  finishStream_q_ne_nil cfg _

theorem serverListRecord_length (cfg : Cfg) : (serverListRecord cfg).length = 46 := by
  simp [serverListRecord, wrU8, wrU16, asmNew]

theorem serverRedirectRecord_length (cfg : Cfg) : (serverRedirectRecord cfg).length = 11 := by
  simp [serverRedirectRecord, wrU8, wrU16, wrU32, asmNew]

/-- Every frame of the dispatch table is non-empty (45_sequencer.md R214, 10_state.md R39 (vii)). -/
theorem responsesOf_ne_nil (cfg : Cfg) (i : Instr) : ∀ f ∈ responsesOf cfg i, f ≠ [] := by
  have hlist : serverListRecord cfg ≠ [] := List.ne_nil_of_length_eq_add_one (serverListRecord_length cfg)
  have hredirect : serverRedirectRecord cfg ≠ [] :=
    List.ne_nil_of_length_eq_add_one (serverRedirectRecord_length cfg)
  cases i <;> simp [responsesOf, hlist, hredirect, compress_ne_nil]

end Sys2Proof.Machine
end

section
/-! The invariants of 10_state.md R39: they hold at reset, and every effect, hence every step, keeps them. -/

namespace Sys2Proof.Machine

/-- Settles O53: every register of the reset state is zero or empty. -/
theorem invariantsHoldAtReset : Obligations.InvariantsHoldAtReset where
  pending := by decide
  values := rfl
  cursor := Nat.le_refl 0
  capacity := Nat.zero_le _
  causeFault := by decide
  causeKnown := .inl rfl
  doneAligned := by decide
  idleEmpty := fun _ => rfl
  frames := by decide

/-- The response is no part of the invariants. -/
theorem inv_resp {s : State} (h : s.Inv) (r : Option Response) : ({ s with resp := r } : State).Inv :=
  { h with }

/-- A new Bit Buffer and phase keep the invariants when they meet R39 (ii), (v) and (vi) themselves. -/
theorem inv_encoder {s : State} (h : s.Inv) {b : BitBuf} {p : Phase} (hpending : b.pv.toNat < 2 ^ b.pb.toNat)
    (hdone : p = .done → b.pb = 0#3 ∧ b.pv = 0#7) (hidle : p = .idle → b = BitBuf.empty) :
    ({ s with bb := b, ph := p } : State).Inv :=
  { h with pending := hpending, doneAligned := hdone, idleEmpty := hidle }

/-- A bit write while the phase is `E_ACTIVE` keeps the invariants (40_bitbuffer.md R113). -/
theorem inv_wb {s : State} (h : s.Inv) (hph : s.ph = .active) (value n : Nat) :
    ({ s with bb := wb s.bb value n } : State).Inv :=
  inv_encoder h (p := s.ph) (wb_pending _ _ _) (by simp [hph]) (by simp [hph])

/-- The codes of the two fatal faults (60_exceptions.md R230). -/
theorem causeCode_known (f : FatalFault) : causeCode f = 1#3 ∨ causeCode f = 2#3 := by
  cases f <;> decide

theorem causeCode_ne_zero (f : FatalFault) : causeCode f ≠ 0#3 := by
  cases f <;> decide

/-- Fault entry sets a code that is not 0, and `S_FAULT` with it (60_exceptions.md R239). -/
theorem takeFault_inv {s : State} (h : s.Inv) (f : FatalFault) : (takeFault f s).Inv :=
  { h with
    causeFault := iff_of_true (causeCode_ne_zero f) rfl
    causeKnown := .inr (causeCode_known f) }

/-- The pass ends in `S_IDLE`; in `S_RUN` the cause was 0 already (45_sequencer.md R212). -/
theorem endPass_inv {s : State} (h : s.Inv) (hrun : s.seq = .run) : (endPass s).Inv :=
  { h with causeFault := by simpa [hrun] using h.causeFault }

/-- A packet that fits commits within the buffer, and its frames are not empty (45_sequencer.md R211). -/
theorem commit_inv {s : State} (h : s.Inv) {len : Nat} {e : PacketEffect} (hfit : s.cur + 1 + len ≤ s.nRx)
    (hframes : ∀ f ∈ e.frames, f ≠ []) : (commit len e s).Inv := by
  rw [commit_eq]
  exact { h with
    cursor := hfit
    frames := fun f hf => (List.mem_append.mp hf).elim (h.frames f) (hframes f) }

theorem pushFrame_inv {s : State} (h : s.Inv) {f : Frame} (hf : f ≠ []) : (pushFrame f s).Inv :=
  { h with frames := by simpa [or_imp, forall_and] using ⟨h.frames, hf⟩ }

/-- The load gives values to exactly the addresses below the new `n_rx` (45_sequencer.md R210). -/
theorem loadRx_inv {s : State} (h : s.Inv) (hidle : s.seq = .idle) {data : List Byte}
    (hcap : data.length ≤ Config.cfg.rxcap) : (loadRx data s).Inv :=
  { h with
    values := by simp [cellsFrom_fst, List.range_eq_range']
    cursor := Nat.zero_le _
    capacity := hcap
    causeFault := by simpa [hidle] using h.causeFault }

/-- Every accepted command keeps the invariants. -/
theorem commandEffect_inv {i : Instr} {s : State} (h : s.Inv) (hw : i.wf = true)
    (ha : accepted Config.cfg i s = true) : (commandEffect i s).Inv := by
  cases i with
  | reset => exact inv_port invariantsHoldAtReset s.port
  | encStart => exact inv_encoder h (by decide) (by decide) (by decide)
  | writeBits value bitCount =>
    obtain ⟨-, hph, -⟩ := of_decide_eq_true ha
    exact inv_wb h hph _ _
  | encPut byte => exact inv_wb h (of_decide_eq_true ha).2 _ _
  | encFinish =>
    have haligned := finishStream_aligned Config.cfg s.bb
    exact inv_encoder h (wb_pending _ _ _) (fun _ => haligned) (by simp)
  | readByte =>
    refine inv_encoder h (p := s.ph) h.pending h.doneAligned fun hph => ?_
    rw [h.idleEmpty hph]
    rfl
  | rxLoad n data =>
    obtain ⟨hidle, -, hcap⟩ := of_decide_eq_true ha
    have hlen : data.length = n.toNat := eq_of_beq hw
    exact loadRx_inv h hidle (hlen ▸ hcap)
  | txPop => exact { h with frames := fun f hf => h.frames f (List.mem_of_mem_tail hf) }
  | _ => exact h

/-- Every instruction keeps the invariants, in whatever layer it stands. -/
theorem exec_inv {i : Instr} {s t : State} (h : s.Inv) (hexec : exec i s = .next t) : t.Inv := by
  cases hl : layer i with
  | command =>
    rcases exec_command_cases hl hexec with ⟨hw, ha, r, rfl⟩ | rfl
    · exact inv_resp (commandEffect_inv h hw ha) _
    · exact inv_resp h _
  | packet =>
    obtain ⟨-, ⟨f, rfl⟩ | ⟨len, e, hfit, hframes, -, rfl⟩⟩ := exec_packet_cases hl hexec
    · exact takeFault_inv h f
    · exact commit_inv h hfit (hframes ▸ responsesOf_ne_nil _ i)
  | record =>
    obtain ⟨-, f, hf, rfl⟩ := exec_record_cases hl hexec
    exact pushFrame_inv h (responsesOf_ne_nil Config.cfg i f (by simp [hf]))

/-- Settles O54: each way of `StepWay` is an effect that keeps the invariants. -/
theorem everyStepKeepsTheInvariants : Obligations.EveryStepKeepsTheInvariants := by
  intro s t hinv hstep
  cases stepWay_of_step hstep with
  | command _ _ hexec => exact exec_inv (inv_port hinv _) hexec
  | @refused w data rest _ => exact inv_resp (inv_port hinv rest) (some .refused)
  | waits _ _ => exact inv_port hinv _
  | passEnds _ hseq _ => exact endPass_inv (inv_port hinv _) hseq
  | packetCut _ _ => exact takeFault_inv (inv_port hinv _) _
  | packet _ _ _ hexec => exact exec_inv (inv_port hinv _) hexec

/-- Settles O55: the addresses listed in `rx` are 0 to `n_rx - 1`, in order. -/
theorem soundReceiveBuffer : Obligations.SoundReceiveBuffer := by
  intro s hinv
  refine ⟨memWf_of_range' (hinv.values.trans (List.range_eq_range' ..)), fun a => ?_⟩
  rw [memGet_isSome_iff, hinv.values, List.mem_range]

/-- Settles O52: the reset state is the table of R38, and its `rx` lists no address. -/
theorem resetValues : Obligations.ResetValues :=
  ⟨rfl, rfl, rfl, rfl, fun _ => rfl, rfl, rfl, rfl, rfl, rfl, rfl, rfl⟩

end Sys2Proof.Machine
end

section
/-! What commands, packets and records leave unchanged, and what leaves `S_FAULT`. -/

namespace Sys2Proof.Machine

/-- Commands other than RESET and RX_LOAD reach the Bit Buffer, the phase and `txq` alone. -/
theorem commandEffect_frame {i : Instr} (hreset : i ≠ .reset) (hload : ∀ n data, i ≠ .rxLoad n data) (s : State) :
    commandEffect i s =
      { s with bb := (commandEffect i s).bb, ph := (commandEffect i s).ph, txq := (commandEffect i s).txq } := by
  cases i with
  | reset => exact absurd rfl hreset
  | rxLoad n data => exact absurd rfl (hload n data)
  | _ => rfl

/-- `txq` loses frames by TX_POP and RESET alone. -/
theorem commandEffect_txq {i : Instr} (hreset : i ≠ .reset) (hpop : i ≠ .txPop) (s : State) :
    (commandEffect i s).txq = s.txq := by
  cases i with
  | reset => exact absurd rfl hreset
  | txPop => exact absurd rfl hpop
  | _ => rfl

/-- The phase is moved by ENC_START, ENC_FINISH and RESET alone. -/
theorem commandEffect_ph {i : Instr} (hreset : i ≠ .reset) (hstart : i ≠ .encStart) (hfinish : i ≠ .encFinish)
    (s : State) : (commandEffect i s).ph = s.ph := by
  cases i with
  | reset => exact absurd rfl hreset
  | encStart => exact absurd rfl hstart
  | encFinish => exact absurd rfl hfinish
  | _ => rfl

/-- Settles O50: a refusal changes the response alone, and an accepted command what `commandEffect` names. -/
theorem commandFrame : Obligations.CommandFrame := by
  intro i s t hl hreset hload hexec
  rcases exec_command_cases hl hexec with ⟨-, -, r, rfl⟩ | rfl
  · have hread : i = .readByte → (commandEffect i s).bb.pv = s.bb.pv ∧ (commandEffect i s).bb.pb = s.bb.pb := by
      rintro rfl
      exact ⟨rfl, rfl⟩
    have hbb : i = .bbOffset ∨ i = .txPop ∨ i = .rdStatus → (commandEffect i s).bb = s.bb := by
      rintro (rfl | rfl | rfl) <;> rfl
    rw [commandEffect_frame hreset hload s]
    exact ⟨fun _ => rfl, rfl, rfl, rfl, rfl, rfl, rfl, rfl, fun hpop => commandEffect_txq hreset hpop s,
      fun hstart hfinish => commandEffect_ph hreset hstart hfinish s, hread, hbb⟩
  · simp

/-- Settles O38: a fault writes `cause` and `seq`, a commit `txq`, the trace, `cur` and `unk`, a record `txq`. -/
theorem packetAndRecordFrame : Obligations.PacketAndRecordFrame := by
  intro i s t hl hexec
  have hrun := seq_run_of_exec_next hl hexec
  cases hi : layer i with
  | command => exact absurd hi hl
  | packet =>
    obtain ⟨-, ⟨f, rfl⟩ | ⟨len, e, -, -, hskips, rfl⟩⟩ := exec_packet_cases hi hexec
    · simp
    · simp +contextual [hrun, hskips]
  | record =>
    obtain ⟨-, f, -, rfl⟩ := exec_record_cases hi hexec
    simp [hrun]

/-- In `S_FAULT` the acceptance matrix takes RESET, TX_POP and RD_STATUS alone (45_sequencer.md R217), and of these
only RESET changes more than `txq`. -/
theorem commandEffect_of_fault {i : Instr} {s : State} (hfault : s.seq = .fault)
    (ha : accepted Config.cfg i s = true) (hreset : i ≠ .reset) :
    commandEffect i s = { s with txq := (commandEffect i s).txq } := by
  cases i with
  | reset => exact absurd rfl hreset
  | txPop | rdStatus => rfl
  | _ => simp [accepted, hfault] at ha

/-- An instruction that runs in `S_FAULT` is RESET, or changes `txq` and the response at most. -/
theorem exec_of_fault {i : Instr} {s t : State} (hfault : s.seq = .fault) (hexec : exec i s = .next t) :
    (i = .reset ∧ t = { restart s with resp := some (.ok .none) }) ∨
    t = { s with txq := t.txq, resp := t.resp } := by
  have hl : layer i = .command := by
    by_contra hl
    simp [seq_run_of_exec_next hl hexec] at hfault
  by_cases hreset : i = .reset
  · subst hreset
    cases hexec
    exact .inl ⟨rfl, rfl⟩
  · right
    rcases exec_command_cases hl hexec with ⟨-, ha, r, rfl⟩ | rfl
    · rw [commandEffect_of_fault hfault ha hreset]
    · rfl

/-- Settles O57: in `S_FAULT` no packet or record runs, and the acceptance matrix leaves RESET, TX_POP and RD_STATUS. -/
theorem onlyResetLeavesTheFaultState : Obligations.OnlyResetLeavesTheFaultState := by
  intro s t hfault hstep
  cases stepWay_of_step hstep with
  | @command w data rest _ _ hport hdecode hexec =>
    rcases exec_of_fault (s := { s with port := rest }) hfault hexec with ⟨rfl, rfl⟩ | ht
    · exact .inr ⟨w, data, rest, hport, hdecode, rfl⟩
    · rw [ht]
      exact .inl ⟨hfault, rfl, rfl, rfl, rfl⟩
  | refused _ => exact .inl ⟨hfault, rfl, rfl, rfl, rfl⟩
  | waits _ _ => exact .inl ⟨hfault, rfl, rfl, rfl, rfl⟩
  | passEnds _ hseq _ => simp [hfault] at hseq
  | packetCut _ hseq => simp [hfault] at hseq
  | packet _ hseq _ _ => simp [hfault] at hseq

end Sys2Proof.Machine
end

section
/-! SUPPORT. What the decoder answers, said once for packets and once for commands (30_encoding.md R81 to R96): a
well-formed instruction of its own layer, or the reason there is none. -/

namespace Sys2Proof.Machine

/-- What a field read over `rd` up to `lim` may answer: a value of which `P` holds, with the limit kept; a fault; or an
address below the limit that holds no value. -/
def Read.Yields {α : Type} (rd : Nat → Option Byte) (lim : Nat) (P : α → Prop) : Read α → Prop
  | .ok v x => x.lim = lim ∧ P v
  | .raise _ _ => True
  | .noValue a => rd a = none ∧ a < lim

variable {rd : Nat → Option Byte} {lim : Nat} {x : Ctx}

theorem Read.Yields.andThen {α β : Type} {P : α → Prop} {Q : β → Prop} {r : Read α} {k : α → Ctx → Read β}
    (h : r.Yields rd lim P) (hk : ∀ v x, x.lim = lim → P v → (k v x).Yields rd lim Q) :
    (r.andThen k).Yields rd lim Q := by
  cases r with
  | ok v x => exact hk v x h.1 h.2
  | raise f info => trivial
  | noValue a => exact h

/-- A field is as many bytes as its width, and stays below the limit (42_field_codec.md R150). -/
theorem rdField_yields (hx : x.lim = lim) (w : Nat) : (rdField rd x w).Yields rd lim (·.length = w) := by
  rcases rdField_cases rd x w with ⟨-, h⟩ | ⟨hw, a, ha, hle, hlt, h⟩ | ⟨-, bs, hm, h⟩ <;> rw [h]
  · trivial
  · exact ⟨ha, by omega⟩
  · exact ⟨hx, ((memRead_ok_iff _ _ _ _).mp hm).1⟩

theorem rdU8_yields (hx : x.lim = lim) : (rdU8 rd x).Yields rd lim fun _ => True :=
  (rdField_yields hx 1).andThen fun _ _ hx _ => ⟨hx, trivial⟩

theorem rdU16_yields (hx : x.lim = lim) : (rdU16 rd x).Yields rd lim fun _ => True :=
  (rdField_yields hx 2).andThen fun _ _ hx _ => ⟨hx, trivial⟩

theorem rdU32_yields (hx : x.lim = lim) : (rdU32 rd x).Yields rd lim fun _ => True :=
  (rdField_yields hx 4).andThen fun _ _ hx _ => ⟨hx, trivial⟩

/-- A well-formed inbound packet. -/
def IsPacket (i : Instr) : Prop := layer i = .packet ∧ i.wf = true

theorem readLoginSeed_yields (hx : x.lim = lim) : (readLoginSeed rd x).Yields rd lim IsPacket :=
  (rdU32_yields hx).andThen fun _ _ hx _ =>
  (rdU32_yields hx).andThen fun _ _ hx _ =>
  (rdU32_yields hx).andThen fun _ _ hx _ =>
  (rdU32_yields hx).andThen fun _ _ hx _ =>
  (rdU32_yields hx).andThen fun _ _ hx _ => ⟨hx, rfl, rfl⟩

theorem readAccountLogin_yields (hx : x.lim = lim) : (readAccountLogin rd x).Yields rd lim IsPacket :=
  (rdField_yields hx strW).andThen fun _ _ hx hu =>
  (rdField_yields hx strW).andThen fun _ _ hx hp =>
  (rdU8_yields hx).andThen fun _ _ hx _ => ⟨hx, rfl, by simp [Instr.wf, hu, hp]⟩

theorem readServerSelect_yields (hx : x.lim = lim) : (readServerSelect rd x).Yields rd lim IsPacket :=
  (rdU16_yields hx).andThen fun _ _ hx _ => ⟨hx, rfl, rfl⟩

theorem readPostLogin_yields (hx : x.lim = lim) : (readPostLogin rd x).Yields rd lim IsPacket :=
  (rdU32_yields hx).andThen fun _ _ hx _ =>
  (rdField_yields hx strW).andThen fun _ _ hx h0 =>
  (rdField_yields hx strW).andThen fun _ _ hx h1 => ⟨hx, rfl, by simp [Instr.wf, h0, h1]⟩

/-- The answers of the packet decoder at `cur` in a space of which `lim` bytes are valid: a well-formed packet, a
packet that does not fit, or an address that holds no value, of the opcode or below `lim`. -/
inductive PacketAnswer (rd : Nat → Option Byte) (cur lim : Nat) : Except Reject Instr → Prop
  | packet {i : Instr} (hpacket : IsPacket i) : PacketAnswer rd cur lim (.ok i)
  | short (op : Byte) : PacketAnswer rd cur lim (.error (.short op))
  | noValue {a : Nat} (hnone : rd a = none) (ha : a = cur ∨ a < lim) : PacketAnswer rd cur lim (.error (.noValue a))

theorem decodeBody_answer {read : Ctx → Read Instr} (hread : ∀ lim x, x.lim = lim → (read x).Yields rd lim IsPacket)
    (cur lim len : Nat) (op : Byte) : PacketAnswer rd cur lim (decodeBody cur lim len op read) := by
  unfold decodeBody
  split
  · exact .short op
  · have hyields := hread (cur + 1 + len) { c := cur + 1, lim := cur + 1 + len } rfl
    generalize read { c := cur + 1, lim := cur + 1 + len } = r at hyields
    cases r with
    | ok i x => exact .packet hyields.2
    | raise f info => exact .short op
    | noValue a =>
      obtain ⟨hnone, hlt⟩ := hyields
      exact .noValue hnone (.inr (by omega))

/-- All that the packet decoder can answer (30_encoding.md R81, R82, 45_sequencer.md R211). -/
theorem decodePacket_answer (rd : Nat → Option Byte) (cur lim : Nat) :
    PacketAnswer rd cur lim (decodePacket rd cur lim) := by
  unfold decodePacket
  cases hop : rd cur with
  | none => exact .noValue hop (.inl rfl)
  | some op =>
    dsimp only
    split_ifs with h0 h1 h2 h3
    · exact decodeBody_answer (fun _ _ => readLoginSeed_yields) ..
    · exact decodeBody_answer (fun _ _ => readAccountLogin_yields) ..
    · exact decodeBody_answer (fun _ _ => readServerSelect_yields) ..
    · exact decodeBody_answer (fun _ _ => readPostLogin_yields) ..
    · exact .packet ⟨rfl, by simp [Instr.wf, recognisedOpcodes, h0, h1, h2, h3]⟩

/-- What the packet decoder accepts is a well-formed packet (30_encoding.md R96). -/
theorem isPacket_of_decodePacket {cur : Nat} {i : Instr} (h : decodePacket rd cur lim = .ok i) : IsPacket i := by
  have hanswer := decodePacket_answer rd cur lim
  rw [h] at hanswer
  cases hanswer with
  | packet hpacket => exact hpacket

/-- A guarded decoder that accepts gives the instruction behind its guard. -/
theorem eq_of_guard_ok {p : Prop} [Decidable p] {i j : Instr} {e : Reject}
    (h : (if p then .ok i else .error e) = Except.ok j) : i = j := by
  split at h
  · exact Except.ok.inj h
  · cases h

/-- A command word stands for a command, well formed where the data port carries the bytes of the word
(30_encoding.md R93). -/
theorem decodeCommandWord_ok {w : CommandWord} {data : List Byte} {i : Instr} (h : decodeCommandWord w data = .ok i) :
    layer i = .command ∧ (data.length = dataNeed i → i.wf = true) := by
  simp only [decodeCommandWord] at h
  split at h
  case h_8 =>
    obtain rfl := eq_of_guard_ok h
    exact ⟨rfl, beq_iff_eq.mpr⟩
  case h_11 => cases h
  all_goals
    obtain rfl := eq_of_guard_ok h
    exact ⟨rfl, fun _ => rfl⟩

/-- What the command decoder accepts is a well-formed command (30_encoding.md R93, 45_sequencer.md R210). -/
theorem decodeCommand_ok {w : CommandWord} {data : List Byte} {i : Instr} (h : decodeCommand w data = .ok i) :
    layer i = .command ∧ i.wf = true := by
  unfold decodeCommand at h
  split at h
  · cases h
  · next hword =>
    obtain ⟨hl, hw⟩ := decodeCommandWord_ok hword
    split at h
    · next hlen =>
      cases h
      exact ⟨hl, hw hlen⟩
    · cases h

end Sys2Proof.Machine
end

section
/-! From a sound state a step never stops (45_sequencer.md R217, R218, 20_memory.md R59). -/

namespace Sys2Proof.Machine

/-! ## A next state -/

/-- A well-formed command is accepted or refused, and never stops (45_sequencer.md R217). -/
theorem exec_command_next {i : Instr} (hl : layer i = .command) (hw : i.wf = true) (s : State) :
    ∃ t, exec i s = .next t := by
  cases ha : accepted Config.cfg i s with
  | true =>
    obtain ⟨r, hr⟩ := exec_accepted hl hw ha
    exact ⟨_, hr⟩
  | false => exact ⟨_, exec_not_accepted hl hw ha⟩

/-- A packet is enabled in `S_RUN` (45_sequencer.md R211). -/
theorem exec_packet_next {i : Instr} {s : State} (hl : layer i = .packet) (hrun : s.seq = .run) :
    ∃ t, exec i s = .next t := by
  obtain ⟨len, body, hexec, -⟩ := exec_packet hl s
  exact ⟨_, hexec.trans (packetStep_run hrun len body)⟩

/-- In a sound state the decoder at a cursor before the end asks for no byte without a value (20_memory.md R59). -/
theorem decodePacket_ne_noValue {s : State} (hinv : s.Inv) (hcur : s.cur ≠ s.nRx) (a : Nat) :
    decodePacket (rxRead s) s.cur s.nRx ≠ .error (.noValue a) := by
  intro h
  have hanswer := decodePacket_answer (rxRead s) s.cur s.nRx
  rw [h] at hanswer
  cases hanswer with
  | noValue hnone ha =>
    have hbeyond := (rxRead_eq_none_iff hinv a).mp hnone
    have hle := hinv.cursor
    omega

/-- The sequencer's move in a sound state answers a next state at once, or runs a packet. -/
theorem packetWork_of_inv {s : State} (hinv : s.Inv) :
    (∃ t, packetWork s = .settled (.next t)) ∨ ∃ i, layer i = .packet ∧ packetWork s = .run i s := by
  unfold packetWork
  split
  · exact .inl ⟨_, rfl⟩
  · next hcur =>
    split
    · next hdecode => exact .inr ⟨_, (isPacket_of_decodePacket hdecode).1, rfl⟩
    · next hdecode => exact absurd hdecode (decodePacket_ne_noValue hinv hcur _)
    · exact .inl ⟨_, rfl⟩

/-- From a sound state a step does not stop while the host holds. -/
theorem step_next_of_hostHolds {s : State} (hinv : s.Inv) (hhold : hostHolds s.port = true) :
    ∃ t, step s = .next t := by
  have hnext := nextWork_hostHolds hhold
  by_cases hrun : s.seq = .run
  · replace hnext := hnext.trans (if_pos hrun)
    rcases packetWork_of_inv (inv_port hinv s.port.tail) with ⟨t, hwork⟩ | ⟨i, hl, hwork⟩
    · exact ⟨t, step_of_settled (hnext.trans hwork)⟩
    · rw [step_of_run (hnext.trans hwork)]
      exact exec_packet_next hl hrun
  · exact ⟨_, step_of_settled (hnext.trans (if_neg hrun))⟩

/-- A transaction that carries the data bytes of its word does not stop the machine (45_sequencer.md R210, R217). -/
theorem step_next_of_issue {s : State} {w : CommandWord} {data : List Byte} {rest : List HostMove}
    (hport : s.port = .issue w data :: rest)
    (hdata : ∀ n given, decodeCommand w data ≠ .error (.dataCount n given)) :
    ∃ t, step s = .next t := by
  have hnext := nextWork_issue hport
  rcases commandWork_cases w data { s with port := rest } with
    ⟨i, hdecode, hwork⟩ | ⟨n, given, hdecode, -⟩ | ⟨e, -, hwork⟩
  · rw [step_of_run (hnext.trans hwork)]
    obtain ⟨hl, hw⟩ := decodeCommand_ok hdecode
    exact exec_command_next hl hw _
  · exact absurd hdecode (hdata n given)
  · exact ⟨_, step_of_settled (hnext.trans hwork)⟩

/-! ## The host's coming moves -/

theorem commandEffect_port (i : Instr) (s : State) : (commandEffect i s).port = s.port := by
  cases i <;> rfl

/-- No instruction takes from or adds to the host's moves. -/
theorem exec_port {i : Instr} {s t : State} (hexec : exec i s = .next t) : t.port = s.port := by
  by_cases hl : layer i = .command
  · rcases exec_command_cases hl hexec with ⟨-, -, r, rfl⟩ | rfl
    · exact commandEffect_port i s
    · rfl
  · obtain ⟨-, -, -, -, hport, -⟩ := packetAndRecordFrame i s t hl hexec
    exact hport

/-- A step takes the host's next move and leaves the others (45_sequencer.md R218). -/
theorem step_port {s t : State} (hstep : step s = .next t) : t.port = s.port.tail := by
  cases stepWay_of_step hstep with
  | command hport _ hexec => rw [exec_port hexec, hport, List.tail_cons]
  | refused hport => rw [hport, List.tail_cons]
  | waits _ _ | passEnds _ _ _ | packetCut _ _ => rfl
  | packet _ _ _ hexec => exact exec_port hexec

theorem portSound_of_step {s t : State} (hsound : s.PortSound) (hstep : step s = .next t) : t.PortSound := by
  intro w data hmem
  rw [step_port hstep] at hmem
  exact hsound w data (List.mem_of_mem_tail hmem)

/-- Settles O56: the host's transaction is run or refused, and while it holds the sequencer reads below `n_rx` alone. -/
theorem soundStepsNeverStop : Obligations.SoundStepsNeverStop := by
  intro s hinv hsound
  obtain ⟨t, hstep⟩ : ∃ t, step s = .next t := by
    rcases issues_or_holds s.port with ⟨w, data, rest, hport⟩ | hhold
    · exact step_next_of_issue hport (hsound w data (by simp [hport]))
    · exact step_next_of_hostHolds hinv hhold
  exact ⟨t, hstep, portSound_of_step hsound hstep⟩

end Sys2Proof.Machine
end

section
/-! The instances of the product do not touch one another (60_exceptions.md R244, R247). -/

namespace Sys2Proof.Machine

/-- One move of a schedule: the scheduled copy steps, or stands still where its step stops; a number past the last
copy moves nothing. -/
theorem runSchedule_cons (k : Nat) (ks : List Nat) (sys : System) :
    runSchedule (k :: ks) sys = runSchedule ks { insts := sys.insts.modify k stepOrStay } := by
  rw [runSchedule, stepInstance, List.modify_eq_set_getElem?]
  cases hk : sys.insts[k]? with
  | none => rfl
  | some s =>
    have hstay : sys.insts.set k s = sys.insts := by
      obtain ⟨hlt, rfl⟩ := List.getElem?_eq_some_iff.mp hk
      exact List.set_getElem_self hlt
    cases hs : step s with
    | next t => simp [hs, stepOrStay_next hs]
    | fault _ | refused _ => simp [stepOrStay, hs, hstay]

/-- Settles O59, by induction on the schedule: each move modifies the scheduled copy alone. -/
theorem instancesAreIsolated : Obligations.InstancesAreIsolated := by
  intro ks
  induction ks with
  | nil => exact fun sys j => by simp [runSchedule]
  | cons k ks ih =>
    intro sys j
    rw [runSchedule_cons, ih, List.getElem?_modify]
    by_cases hkj : k = j
    · subst hkj
      simp
    · simp [hkj]

end Sys2Proof.Machine
end

section
/-! Integer fields are big-endian (42_field_codec.md R151 to R153, 20_memory.md R55). -/

namespace Sys2Proof.Machine

theorem memRead_cons {rd : Nat → Option Byte} {a n : Nat} {b : Byte} {bs : List Byte} (hb : rd a = some b)
    (hbs : memRead rd (a + 1) n = .ok bs) : memRead rd a (n + 1) = .ok (b :: bs) := by
  simp [memRead, hb, hbs]

theorem be_lt (s : List Byte) : be s < 256 ^ s.length := by
  induction s using List.reverseRecOn with
  | nil => simp
  | append_singleton s b ih =>
    have := b.isLt
    rw [be_concat, List.length_append, List.length_singleton, pow_succ]
    omega

/-- A field of as many bits as its bytes have holds their whole big-endian value. -/
theorem toNat_ofNat_be {w : Nat} {s : List Byte} (hw : w = 8 * s.length) : (BitVec.ofNat w (be s)).toNat = be s := by
  rw [BitVec.toNat_ofNat, Nat.mod_eq_of_lt]
  rw [hw, pow_mul]
  exact be_lt s

/-- Settles O24: the field's bytes are read one after another, and their big-endian value fits the width. -/
theorem fieldReadsAreBigEndian : Obligations.FieldReadsAreBigEndian := by
  intro rd c lim b0 b1 b2 b3 h0
  refine ⟨fun hl => ?_, fun hl h1 => ?_, fun hl h1 h2 h3 => ?_⟩
  · have hm : memRead rd c 1 = .ok [b0] := memRead_cons h0 rfl
    rw [rdU8, rdField_ok (Nat.le_sub_of_add_le' hl) hm]
    simp [be]
  · have hm : memRead rd c 2 = .ok [b0, b1] := memRead_cons h0 (memRead_cons h1 rfl)
    refine ⟨BitVec.ofNat 16 (be [b0, b1]), (toNat_ofNat_be rfl).trans ?_, ?_⟩
    · simp [be]
    · rw [rdU16, rdField_ok (Nat.le_sub_of_add_le' hl) hm, andThen_ok]
  · have hm : memRead rd c 4 = .ok [b0, b1, b2, b3] :=
      memRead_cons h0 (memRead_cons h1 (memRead_cons h2 (memRead_cons h3 rfl)))
    refine ⟨BitVec.ofNat 32 (be [b0, b1, b2, b3]), (toNat_ofNat_be rfl).trans ?_, ?_⟩
    · simp only [be, List.foldl_cons, List.foldl_nil]
      omega
    · rw [rdU32, rdField_ok (Nat.le_sub_of_add_le' hl) hm, andThen_ok]

end Sys2Proof.Machine
end

section
/-! The receive buffer is frozen during a pass (20_memory.md R65, 70_reset_and_hazards.md R267). -/

namespace Sys2Proof.Machine

/-- In `S_RUN` the acceptance matrix takes RESET alone (45_sequencer.md R217). -/
theorem eq_reset_of_accepted_of_run {cfg : Cfg} {i : Instr} {s : State} (hl : layer i = .command)
    (hrun : s.seq = .run) (ha : accepted cfg i s = true) : i = .reset := by
  cases i with
  | reset => rfl
  | encStart | writeBits _ _ | encPut _ | encFinish | readByte | bbOffset | rxLoad _ _ | txPop | rdStatus =>
    simp [accepted, hrun] at ha
  | _ => cases hl

/-- A command issued during a pass is RESET or is refused (45_sequencer.md R217). -/
theorem exec_command_of_run {i : Instr} {s t : State} (hl : layer i = .command) (hrun : s.seq = .run)
    (hexec : exec i s = .next t) : i = .reset ∨ t = { s with resp := some .refused } :=
  (exec_command_cases hl hexec).imp_left fun ⟨_, ha, _⟩ => eq_reset_of_accepted_of_run hl hrun ha

/-- Settles O58: every command but RESET is refused, and the sequencer's own moves write other registers. -/
theorem receiveBufferIsFrozenDuringAPass : Obligations.ReceiveBufferIsFrozenDuringAPass := by
  intro s t hrun hstep
  cases stepWay_of_step hstep with
  | @command w data rest _ _ hport hdecode hexec =>
    rcases exec_command_of_run (s := { s with port := rest }) (decodeCommand_ok hdecode).1 hrun hexec with rfl | rfl
    · exact .inr ⟨w, data, rest, hport, hdecode⟩
    · exact .inl ⟨fun _ => rfl, rfl⟩
  | refused _ | waits _ _ | passEnds _ _ _ | packetCut _ _ => exact .inl ⟨fun _ => rfl, rfl⟩
  | packet _ _ hdecode hexec =>
    obtain ⟨hl, -⟩ := isPacket_of_decodePacket hdecode
    obtain ⟨-, -, hnRx, -, -, hrx, -⟩ := packetAndRecordFrame _ _ _ (by simp [hl]) hexec
    exact .inl ⟨hrx, hnRx⟩

end Sys2Proof.Machine
end

section
/-! Encoded commands: the decoder of command words inverts the encoder and accepts no other word (30_encoding.md R93,
R94). -/

namespace Sys2Proof.Machine

/-! ## Decode of encode -/

theorem decode_encode_command (cfg : Cfg) {i : Instr} (hl : layer i = .command) (hw : i.wf = true) :
    decode (encode cfg i) = .ok i := by
  cases i with
  | reset | encStart | encFinish | readByte | bbOffset | txPop | rdStatus =>
    simp [encode, plainWord, decode, decodeCommand, decodeCommandWord, plainCommand, dataNeed]
  | writeBits value bitCount => simp [encode, decode, decodeCommand, decodeCommandWord, dataNeed]
  | encPut byte =>
    simp [encode, decode, decodeCommand, decodeCommandWord, dataNeed, BitVec.extractLsb'_append_eq_left (w' := 8),
      BitVec.extractLsb'_append_eq_right (w' := 8)]
  | rxLoad n data =>
    simp [encode, decode, decodeCommand, decodeCommandWord, dataNeed, BitVec.extractLsb'_append_eq_left (w' := 16),
      BitVec.extractLsb'_append_eq_right (w' := 16), eq_of_beq hw]
  | _ => cases hl

/-! ## Encode of decode -/

/-- A word is the one made of its fields, however these are written down. -/
theorem commandWord_eq {w : CommandWord} {code : BitVec 4} {n6 reserved : BitVec 6} {imm : BitVec 32}
    (hcode : (commandFields w).code.toNat = code.toNat) (hn6 : (commandFields w).n6 = n6)
    (hreserved : (commandFields w).reserved = reserved) (himm : (commandFields w).imm = imm) :
    commandWord { code := code, n6 := n6, reserved := reserved, imm := imm } = w := by
  obtain rfl := BitVec.eq_of_toNat_eq hcode
  obtain rfl := hn6
  obtain rfl := hreserved
  obtain rfl := himm
  exact commandWord_commandFields w

/-- An `imm` whose must-be-zero bits are 0 is its operand, extended by zeros (30_encoding.md R93). -/
theorem zero_append_extractLsb' {m n : Nat} {x : BitVec (m + n)} (h : x.extractLsb' n m = 0#m) :
    0#m ++ x.extractLsb' 0 n = x := by
  rw [← h, BitVec.extractLsb'_append_extractLsb'_eq_extractLsb' (Nat.zero_add n).symm, BitVec.extractLsb'_eq_self]

/-- A guarded decoder that accepts has its guard met, and gives the instruction behind it. -/
theorem guard_ok_iff {p : Prop} [Decidable p] {i j : Instr} {e : Reject} :
    (if p then .ok j else .error e) = Except.ok i ↔ p ∧ j = i := by
  split <;> simp [*]

/-- A command without operands has zeros behind its code (30_encoding.md R93, R94 (b)). -/
theorem plainWord_eq {w : CommandWord} {code : BitVec 4} (hcode : (commandFields w).code.toNat = code.toNat)
    (hzero : (commandFields w).n6 = 0#6 ∧ (commandFields w).reserved = 0#6 ∧ (commandFields w).imm = 0#32) :
    plainWord code = .command w [] := by
  obtain ⟨hn6, hreserved, himm⟩ := hzero
  rw [plainWord, commandWord_eq hcode hn6 hreserved himm]

/-- A word that decodes is the encoded word of its instruction, and the data port is the encoded one where it carries
as many bytes as the word says (30_encoding.md R93, R94, 45_sequencer.md R210). -/
theorem encode_of_decodeCommandWord (cfg : Cfg) {w : CommandWord} {data : List Byte} {i : Instr}
    (h : decodeCommandWord w data = .ok i) :
    ∃ d, encode cfg i = .command w d ∧ (data.length = dataNeed i → d = data) := by
  have hnil (hlen : data.length = 0) : [] = data := (List.eq_nil_of_length_eq_zero hlen).symm
  simp only [decodeCommandWord] at h
  split at h
  case h_3 hcode => -- WRITE_BITS
    obtain ⟨hreserved, rfl⟩ := guard_ok_iff.mp h
    exact ⟨[], congrArg (Encoding.command · []) (commandWord_eq hcode rfl hreserved rfl), hnil⟩
  case h_4 hcode => -- ENC_PUT
    obtain ⟨⟨hn6, hreserved, himm⟩, rfl⟩ := guard_ok_iff.mp h
    exact ⟨[], congrArg (Encoding.command · [])
      (commandWord_eq hcode hn6 hreserved (zero_append_extractLsb' himm).symm), hnil⟩
  case h_8 hcode => -- RX_LOAD
    obtain ⟨⟨hn6, hreserved, himm⟩, rfl⟩ := guard_ok_iff.mp h
    exact ⟨data, congrArg (Encoding.command · data)
      (commandWord_eq hcode hn6 hreserved (zero_append_extractLsb' himm).symm), fun _ => rfl⟩
  case h_11 => cases h -- a reserved code
  all_goals
    next hcode =>
    obtain ⟨hzero, rfl⟩ := guard_ok_iff.mp h
    exact ⟨[], plainWord_eq hcode hzero, hnil⟩

/-- Settles O5: the word is the encoded one, and the data bytes are counted before a transaction decodes. -/
theorem encodeOfDecodedCommandIsTheWord : Obligations.EncodeOfDecodedCommandIsTheWord := by
  intro cfg w data i h
  unfold decodeCommand at h
  split at h
  · cases h
  · next hword =>
    obtain ⟨d, hencode, hdata⟩ := encode_of_decodeCommandWord cfg hword
    split at h
    · next hlen =>
      cases h
      rw [hencode, hdata hlen]
    · cases h

/-! ## Refused words -/

/-- The fields of a word that the block refuses for its bits alone (30_encoding.md R94 (a), (b)): a reserved code, or a
non-zero must-be-zero bit. -/
def MustRefuse (f : CommandFields) : Prop :=
  10 ≤ f.code.toNat ∨ f.reserved ≠ 0#6 ∨ (f.code ≠ 2#4 ∧ f.n6 ≠ 0#6) ∨
    (f.code = 3#4 ∧ f.imm.extractLsb' 8 24 ≠ 0#24) ∨ (f.code = 7#4 ∧ f.imm.extractLsb' 16 16 ≠ 0#16) ∨
    (f.code ≠ 2#4 ∧ f.code ≠ 3#4 ∧ f.code ≠ 7#4 ∧ f.imm ≠ 0#32)

/-- No encoded word is one that the block must refuse. -/
theorem not_mustRefuse_of_encode {cfg : Cfg} {i : Instr} {w : CommandWord} {data : List Byte}
    (h : encode cfg i = .command w data) : ¬ MustRefuse (commandFields w) := by
  cases i with
  | reset | encStart | encFinish | readByte | bbOffset | txPop | rdStatus | writeBits _ _ =>
    cases h
    simp [MustRefuse]
  | encPut byte =>
    cases h
    simp [MustRefuse, BitVec.extractLsb'_append_eq_left (w' := 8)]
  | rxLoad n data =>
    cases h
    simp [MustRefuse, BitVec.extractLsb'_append_eq_left (w' := 16)]
  | _ => cases h

/-- A word alone is rejected for its code or its must-be-zero bits. -/
theorem decodeCommandWord_cases (w : CommandWord) (data : List Byte) :
    (∃ i, decodeCommandWord w data = .ok i) ∨ decodeCommandWord w data = .error .mustBeZero ∨
      decodeCommandWord w data = .error .reservedCode := by
  simp only [decodeCommandWord, plainCommand]
  split
  case h_11 => exact .inr (.inr rfl)
  all_goals
    split
    · exact .inl ⟨_, rfl⟩
    · exact .inr (.inl rfl)

/-- A word that must be refused is, before its data bytes are counted (45_sequencer.md R217). -/
theorem commandWork_of_mustRefuse {w : CommandWord} (hbad : MustRefuse (commandFields w)) (data : List Byte)
    (s : State) : commandWork w data s = .settled (refuse s) := by
  rcases decodeCommandWord_cases w data with ⟨i, hword⟩ | hword | hword
  · obtain ⟨d, hencode, -⟩ := encode_of_decodeCommandWord Config.cfg hword
    exact absurd hbad (not_mustRefuse_of_encode hencode)
  all_goals simp only [commandWork, decodeCommand, hword]

/-- Settles O7: such a word is none that the encoder writes, and the decoder accepts no other. -/
theorem badCommandWordsAreRefused : Obligations.BadCommandWordsAreRefused := by
  intro s w data rest hport f hbad
  exact step_of_settled ((nextWork_issue hport).trans (commandWork_of_mustRefuse hbad data _))

end Sys2Proof.Machine
end

section
/-! Encoded packets: reading the fields of a body takes from its front, one field after another, the bytes that the
encoder wrote (30_encoding.md R82 to R87, 42_field_codec.md R150 to R154). -/

namespace Sys2Proof.Machine

/-- A reader takes exactly the bytes `f` from the cursor on and answers `v`, wherever they stand below the limit. -/
def Takes {α : Type} (rd : Nat → Option Byte) (read : Ctx → Read α) (f : List Byte) (v : α) : Prop :=
  ∀ c lim, memRead rd c f.length = .ok f → c + f.length ≤ lim →
    read { c := c, lim := lim } = .ok v { c := c + f.length, lim := lim }

variable {rd : Nat → Option Byte} {α β : Type}

/-- Bytes that stand in a row stand each in its place. -/
theorem memRead_append {c : Nat} {f g : List Byte} (h : memRead rd c (f ++ g).length = .ok (f ++ g)) :
    memRead rd c f.length = .ok f ∧ memRead rd (c + f.length) g.length = .ok g := by
  simp only [memRead_ok_iff, true_and, List.length_append] at h ⊢
  refine ⟨fun k hk => ?_, fun k hk => ?_⟩
  · rw [h k (by omega), List.getElem?_append_left hk]
  · rw [Nat.add_assoc, h (f.length + k) (by omega), List.getElem?_append_right (Nat.le_add_right ..),
      Nat.add_sub_cancel_left]

/-- Reads in a row take their bytes in a row. -/
theorem Takes.andThen {r : Ctx → Read α} {k : α → Ctx → Read β} {f g : List Byte} {v : α} {u : β}
    (hr : Takes rd r f v) (hk : Takes rd (k v) g u) : Takes rd (fun x => (r x).andThen k) (f ++ g) u := by
  intro c lim hmem hle
  obtain ⟨hf, hg⟩ := memRead_append hmem
  rw [List.length_append] at hle ⊢
  dsimp only
  rw [hr c lim hf (by omega), andThen_ok, hk _ lim hg (by omega), Nat.add_assoc]

/-- A value computed from what was read takes no more bytes. -/
theorem Takes.map {r : Ctx → Read α} {f : List Byte} {v : α} (hr : Takes rd r f v) (g : α → β) :
    Takes rd (fun x => (r x).andThen fun v x => .ok (g v) x) f (g v) := by
  intro c lim hmem hle
  dsimp only
  rw [hr c lim hmem hle, andThen_ok]

theorem takes_rdField {w : Nat} {f : List Byte} (hw : f.length = w) : Takes rd (rdField rd · w) f f := by
  subst hw
  exact fun c lim hmem hle => rdField_ok (Nat.le_sub_of_add_le' hle) hmem

theorem ofNat_be_beBytes {n w : Nat} (v : BitVec w) (hw : 256 ^ n = 2 ^ w) :
    BitVec.ofNat w (be (beBytes v.toNat n)) = v := by
  rw [be_beBytes_of_lt (hw ▸ v.isLt), BitVec.ofNat_toNat, BitVec.setWidth_eq]

theorem takes_rdU8 (v : Byte) : Takes rd (rdU8 rd) [v] v := by
  have h := (takes_rdField (rd := rd) (f := [v]) rfl).map fun bs => BitVec.ofNat 8 (be bs)
  have hbe : BitVec.ofNat 8 (be [v]) = v := by simp [be]
  rwa [hbe] at h

theorem takes_rdU16 (v : BitVec 16) : Takes rd (rdU16 rd) (beBytes v.toNat 2) v := by
  have h := (takes_rdField (rd := rd) (beBytes_length v.toNat 2)).map fun bs => BitVec.ofNat 16 (be bs)
  rwa [ofNat_be_beBytes v (by decide)] at h

theorem takes_rdU32 (v : BitVec 32) : Takes rd (rdU32 rd) (beBytes v.toNat 4) v := by
  have h := (takes_rdField (rd := rd) (beBytes_length v.toNat 4)).map fun bs => BitVec.ofNat 32 (be bs)
  rwa [ofNat_be_beBytes v (by decide)] at h

/-! ## The bodies -/

theorem takes_readLoginSeed (seed major minor revision patch : BitVec 32) :
    Takes rd (readLoginSeed rd) (beBytes seed.toNat 4 ++ (beBytes major.toNat 4 ++ (beBytes minor.toNat 4
      ++ (beBytes revision.toNat 4 ++ beBytes patch.toNat 4)))) (.loginSeed seed major minor revision patch) :=
  (takes_rdU32 seed).andThen <| (takes_rdU32 major).andThen <| (takes_rdU32 minor).andThen <|
    (takes_rdU32 revision).andThen <| (takes_rdU32 patch).map _

theorem takes_readAccountLogin {username password : List Byte} (hu : username.length = strW)
    (hp : password.length = strW) (tail : Byte) :
    Takes rd (readAccountLogin rd) (username ++ (password ++ [tail])) (.accountLogin username password tail) :=
  (takes_rdField hu).andThen <| (takes_rdField hp).andThen <| (takes_rdU8 tail).map _

theorem takes_readServerSelect (index : BitVec 16) :
    Takes rd (readServerSelect rd) (beBytes index.toNat 2) (.serverSelect index) :=
  (takes_rdU16 index).map _

theorem takes_readPostLogin (key : BitVec 32) {str0 str1 : List Byte} (h0 : str0.length = strW)
    (h1 : str1.length = strW) :
    Takes rd (readPostLogin rd) (beBytes key.toNat 4 ++ (str0 ++ str1)) (.postLogin key str0 str1) :=
  (takes_rdU32 key).andThen <| (takes_rdField h0).andThen <| (takes_rdField h1).map _

/-! ## The packets -/

theorem memRead_listSpace_cons (op : Byte) (body : List Byte) :
    memRead (listSpace (op :: body)) 1 body.length = .ok body := by
  rw [memRead_ok_iff]
  exact ⟨rfl, fun k _ => by rw [listSpace, Nat.add_comm, List.getElem?_cons_succ]⟩

/-- A packet whose body its reader takes whole decodes to what the reader answers (45_sequencer.md R211). -/
theorem decodeBody_of_takes (op : Byte) (len : Nat) {body : List Byte} {read : Ctx → Read Instr} {i : Instr}
    (hlen : body.length = len) (h : Takes (listSpace (op :: body)) read body i) :
    decodeBody 0 (op :: body).length len op read = .ok i := by
  subst hlen
  have hread := h 1 (1 + body.length) (memRead_listSpace_cons op body) (Nat.le_refl _)
  rw [decodeBody, if_neg (by simp [Nat.add_comm]), Nat.zero_add, hread, ofRead]

/-- Settles O8: the opcode is compared with the recognised four alone. -/
theorem everyOtherOpcodeIsIgnored : Obligations.EveryOtherOpcodeIsIgnored := by
  intro rd cur lim op hop hother
  simp only [recognisedOpcodes, List.mem_cons, List.not_mem_nil, or_false, not_or] at hother
  obtain ⟨hseed, hlogin, hselect, hpost⟩ := hother
  rw [decodePacket, hop]
  simp only [if_neg hseed, if_neg hlogin, if_neg hselect, if_neg hpost]

theorem decode_encode_packet (cfg : Cfg) {i : Instr} (hl : layer i = .packet) (hw : i.wf = true) :
    decode (encode cfg i) = .ok i := by
  cases i with
  | loginSeed seed major minor revision patch =>
    simp only [encode, List.append_assoc]
    exact decodeBody_of_takes 0xEF#8 loginSeedBody (by simp [loginSeedBody])
      (takes_readLoginSeed seed major minor revision patch)
  | accountLogin username password tail =>
    obtain ⟨hu, hp⟩ : username.length = strW ∧ password.length = strW := by simpa [Instr.wf] using hw
    simp only [encode, List.append_assoc]
    exact decodeBody_of_takes 0x80#8 accountLoginBody (by simp [hu, hp, strW, accountLoginBody])
      (takes_readAccountLogin hu hp tail)
  | serverSelect index =>
    exact decodeBody_of_takes 0xA0#8 serverSelectBody (by simp [serverSelectBody]) (takes_readServerSelect index)
  | postLogin key str0 str1 =>
    obtain ⟨h0, h1⟩ : str0.length = strW ∧ str1.length = strW := by simpa [Instr.wf] using hw
    simp only [encode, List.append_assoc]
    exact decodeBody_of_takes 0x91#8 postLoginBody (by simp [h0, h1, strW, postLoginBody])
      (takes_readPostLogin key h0 h1)
  | ignored op => exact everyOtherOpcodeIsIgnored _ 0 _ op List.getElem?_cons_zero (by simpa [Instr.wf] using hw)
  | _ => cases hl

end Sys2Proof.Machine
end

section
/-! Encoded records, and the three layers together (30_encoding.md R80, R88 to R90). -/

namespace Sys2Proof.Machine

/-! ## Records -/

/-- Writing behind the first byte of a record leaves the first byte. -/
theorem wrBytes_succ_head? (B : List Byte) (a : Nat) (s : List Byte) : (wrBytes B (a + 1) s).head? = B.head? := by
  cases B with
  | nil => exact List.head?_eq_none_iff.mpr (List.length_eq_zero_iff.mp (wrBytes_length s [] (a + 1)))
  | cons b B => rw [wrBytes_cons]; rfl

theorem serverListRecord_head? (cfg : Cfg) : (serverListRecord cfg).head? = some 0xA8#8 := by
  simp only [serverListRecord, wrU8, wrU16, wrBytes_succ_head?]
  rfl

theorem serverRedirectRecord_head? (cfg : Cfg) : (serverRedirectRecord cfg).head? = some 0x8C#8 := by
  simp only [serverRedirectRecord, wrU16, wrU32, wrBytes_succ_head?]
  rfl

theorem decodeRecord_serverListRecord (cfg : Cfg) : decodeRecord (serverListRecord cfg) = .ok .serverList := by
  obtain ⟨rest, hrecord⟩ := List.head?_eq_some_iff.mp (serverListRecord_head? cfg)
  have hlen := serverListRecord_length cfg
  rw [hrecord] at hlen ⊢
  exact if_pos ⟨rfl, hlen⟩

theorem decodeRecord_serverRedirectRecord (cfg : Cfg) :
    decodeRecord (serverRedirectRecord cfg) = .ok .serverRedirect := by
  obtain ⟨rest, hrecord⟩ := List.head?_eq_some_iff.mp (serverRedirectRecord_head? cfg)
  have hlen := serverRedirectRecord_length cfg
  rw [hrecord] at hlen ⊢
  rw [decodeRecord, if_neg (by simp), if_pos ⟨rfl, hlen⟩]

theorem decode_encode_record (cfg : Cfg) {i : Instr} (hl : layer i = .record) : decode (encode cfg i) = .ok i := by
  cases i with
  | serverList => exact decodeRecord_serverListRecord cfg
  | serverRedirect => exact decodeRecord_serverRedirectRecord cfg
  | features | charList => rfl
  | _ => cases hl

/-- Whatever record the decoder answers carries no operand, so it is well formed. -/
theorem wf_of_decodeRecord {bs : List Byte} {i : Instr} (h : decodeRecord bs = .ok i) : i.wf = true := by
  unfold decodeRecord at h
  split at h
  · cases h
  · split_ifs at h <;> cases h <;> rfl

/-! ## The three layers -/

/-- Settles O4, layer by layer: a command's fields are read back from its word, a packet's from its body, and a record
is told by its opcode and length. -/
theorem decodeOfEncodeIsTheInstruction : Obligations.DecodeOfEncodeIsTheInstruction := by
  intro cfg i hw
  cases hl : layer i with
  | command => exact decode_encode_command cfg hl hw
  | packet => exact decode_encode_packet cfg hl hw
  | record => exact decode_encode_record cfg hl

/-- Settles O6, layer by layer. -/
theorem decodedInstructionsAreWellFormed : Obligations.DecodedInstructionsAreWellFormed := by
  intro e i h
  cases e with
  | command w data => exact (decodeCommand_ok h).2
  | packet bytes => exact (isPacket_of_decodePacket h).2
  | record bytes => exact wf_of_decodeRecord h

/-- Settles O3: the decoder is run on each of the twelve encodings. -/
theorem specWordsDecode : Obligations.SpecWordsDecode := by
  unfold Obligations.SpecWordsDecode
  decide

end Sys2Proof.Machine
end

section
/-! Bits of a code above its length do not matter (30_encoding.md R97, 93_implementation_defined.md U15). -/

namespace Sys2Proof.Machine

/-- A write reads the low `n` bits of its value alone. -/
theorem wb_congr {value value' n : Nat} (h : value % 2 ^ n = value' % 2 ^ n) (b : BitBuf) :
    wb b value n = wb b value' n := by
  simp only [wb, codeOperand, h]

/-- Settles O21: each code of the message and the terminal code are written by `wb`. -/
theorem highCodeBitsAreIgnored : Obligations.HighCodeBitsAreIgnored := by
  refine ⟨fun b value n => wb_congr (Nat.mod_mod _ _).symm b, fun cfg cfg' input htab hlen hcode => ?_⟩
  have hput : putByte cfg = putByte cfg' := by
    funext b x
    obtain ⟨hxlen, hxcode⟩ := htab x
    rw [putByte, wb_congr hxcode, hxlen, putByte]
  have hfinish : finishStream cfg = finishStream cfg' := by
    funext b
    simp only [finishStream, wb_congr hcode, ← hlen]
  rw [compress, compress, hput, hfinish]

end Sys2Proof.Machine
end

section
/-! What a bit write does to the Bit Buffer: the bits it appends, the bytes it completes, its corner cases
(40_bitbuffer.md R110, R113, 10_state.md R23). -/

namespace Sys2Proof.Machine

/-! ## The stream law -/

/-- The accumulator of a write, the new bits behind the pending ones, is the pending bits followed by the new ones. -/
theorem codeBits_mul_add_mod (pv value pb n : Nat) :
    codeBits (pv * 2 ^ n + value % 2 ^ n) (pb + n) = codeBits pv pb ++ codeBits value n := by
  have hlow : value % 2 ^ n < 2 ^ n := Nat.mod_lt _ (by positivity)
  have hhigh : (pv * 2 ^ n + value % 2 ^ n) / 2 ^ n = pv := by
    rw [Nat.mul_comm, Nat.mul_add_div (by positivity), Nat.div_eq_of_lt hlow, Nat.add_zero]
  have hmod : (pv * 2 ^ n + value % 2 ^ n) % 2 ^ n = value % 2 ^ n := by rw [Nat.mul_add_mod', Nat.mod_mod]
  rw [codeBits_append, hhigh, codeBits_congr hmod]

/-- A byte shows the low eight bits of the number it is cut from. -/
theorem codeBits_byte (a : Nat) : codeBits (BitVec.ofNat 8 (a % 256)).toNat 8 = codeBits a 8 :=
  codeBits_congr (by simp)

/-- Cutting bytes off the front of a number of `8 * k + r` bits, as a write does, keeps every bit in its place. -/
theorem codeBits_eq_bytesBits_append (acc r k : Nat) :
    codeBits acc (8 * k + r) =
      bytesBits ((List.range k).map fun i => BitVec.ofNat 8 (acc / 2 ^ (8 * k + r - 8 * (i + 1)) % 256)) ++
        codeBits acc r := by
  induction k with
  | zero => simp [bytesBits]
  | succ k ih =>
    have hsplit : 8 * (k + 1) + r = 8 + (8 * k + r) := by omega
    have hfirst : 8 + (8 * k + r) - 8 * (0 + 1) = 8 * k + r := by omega
    have hrest (i : Nat) : 8 + (8 * k + r) - 8 * (i + 1 + 1) = 8 * k + r - 8 * (i + 1) := by omega
    rw [hsplit, codeBits_append, ih, List.range_succ_eq_map, List.map_cons, List.map_map, hfirst,
      ← codeBits_byte, ← List.append_assoc]
    simp only [Function.comp_def, Nat.succ_eq_add_one, hrest]
    rfl

/-- The stream law: a write appends exactly its `n` bits (40_bitbuffer.md R113). -/
theorem wb_stream (b : BitBuf) (value n : Nat) : (wb b value n).stream = b.stream ++ codeBits value n := by
  have hcut := codeBits_eq_bytesBits_append (b.pv.toNat * 2 ^ n + value % 2 ^ n) ((b.pb.toNat + n) % 8)
    ((b.pb.toNat + n) / 8)
  rw [Nat.div_add_mod, codeBits_mul_add_mod] at hcut
  rw [BitBuf.stream, wb_q, wb_pv, wb_pb, codeBits_congr (Nat.mod_mod _ _), bytesBits_append, List.append_assoc,
    ← hcut, BitBuf.stream, List.append_assoc]

/-- The bytes a write completes stand behind those in `q` (40_bitbuffer.md R113). -/
theorem wb_q_append (b : BitBuf) (value n : Nat) :
    ∃ bs, (wb b value n).q = b.q ++ bs ∧ bs.length = (b.pb.toNat + n) / 8 :=
  ⟨_, wb_q b value n, by simp⟩

/-- Settles O9, by the stream law and what a write does to each register. -/
theorem writeAppendsExactlyItsBits : Obligations.WriteAppendsExactlyItsBits :=
  fun b value n => ⟨wb_stream b value n, wb_q_append b value n, wb_pb b value n, wb_pending b value n⟩

/-! ## Corner cases -/

/-- A write up to a byte boundary leaves no bit pending (40_bitbuffer.md R110 (e)). -/
theorem wb_of_boundary {b : BitBuf} {n : Nat} (h : (b.pb.toNat + n) % 8 = 0) (value : Nat) :
    (wb b value n).pb = 0#3 ∧ (wb b value n).pv = 0#7 := by
  have hpb := (wb_pb b value n).trans h
  have hpv := wb_pending b value n
  rw [hpb] at hpv
  exact ⟨BitVec.eq_of_toNat_eq hpb, BitVec.eq_of_toNat_eq (Nat.lt_one_iff.mp hpv)⟩

/-- A write that completes no byte only makes the pending value longer (40_bitbuffer.md R110 (d)). -/
theorem wb_of_lt_eight {b : BitBuf} {n : Nat} (hpv : b.pv.toNat < 2 ^ b.pb.toNat) (h : b.pb.toNat + n < 8)
    (value : Nat) :
    (wb b value n).q = b.q ∧ (wb b value n).pv.toNat = b.pv.toNat * 2 ^ n + value % 2 ^ n ∧
      (wb b value n).pb.toNat = b.pb.toNat + n := by
  have hacc : b.pv.toNat * 2 ^ n + value % 2 ^ n < 2 ^ (b.pb.toNat + n) :=
    calc b.pv.toNat * 2 ^ n + value % 2 ^ n < (b.pv.toNat + 1) * 2 ^ n := by
          rw [Nat.succ_mul]
          exact Nat.add_lt_add_left (Nat.mod_lt _ (by positivity)) _
      _ ≤ 2 ^ b.pb.toNat * 2 ^ n := Nat.mul_le_mul_right _ hpv
      _ = 2 ^ (b.pb.toNat + n) := (Nat.pow_add ..).symm
  rw [wb_q, wb_pv, wb_pb, Nat.div_eq_of_lt h, Nat.mod_eq_of_lt h, Nat.mod_eq_of_lt hacc]
  simp

/-- A write of no bits changes nothing (40_bitbuffer.md R110 (a)). -/
theorem wb_zero {b : BitBuf} (hpv : b.pv.toNat < 2 ^ b.pb.toNat) (value : Nat) : wb b value 0 = b := by
  obtain ⟨hq, hpv', hpb⟩ := wb_of_lt_eight hpv (n := 0) b.pb.isLt value
  rw [pow_zero, Nat.mul_one, Nat.mod_one] at hpv'
  calc wb b value 0 = ⟨(wb b value 0).pv, (wb b value 0).pb, (wb b value 0).q⟩ := rfl
    _ = b := by rw [hq, BitVec.eq_of_toNat_eq hpv', BitVec.eq_of_toNat_eq hpb]

/-- Settles O10: 32 bits are four bytes, so `pb` stays; the other cases are the lemmas above. -/
theorem writeBitsCornerCases : Obligations.WriteBitsCornerCases := by
  intro b value n hpv
  refine ⟨wb_zero hpv value, fun hpb => ⟨?_, ?_⟩, fun h => wb_of_lt_eight hpv h value,
    fun h => wb_of_boundary h value⟩
  · rw [wb_q_length, hpb]
  · apply BitVec.eq_of_toNat_eq
    rw [wb_pb, hpb]
    rfl

/-! ## How far `q` grows -/

/-- The terminal code and the padding complete all bytes that the terminal code touches (41_huffman_encoder.md R132). -/
theorem finishStream_q_append (cfg : Cfg) (b : BitBuf) :
    ∃ bs, (finishStream cfg b).q = b.q ++ bs ∧ bs.length = (b.pb.toNat + cfg.term.len + 7) / 8 := by
  obtain ⟨bs, hbs, hlen⟩ := wb_q_append b cfg.term.code.toNat cfg.term.len
  obtain ⟨bs', hbs', hlen'⟩ := wb_q_append (wb b cfg.term.code.toNat cfg.term.len) 0
    (boundaryOffset (wb b cfg.term.code.toNat cfg.term.len))
  refine ⟨bs ++ bs', ?_, ?_⟩
  · rw [finishStream, hbs', hbs, List.append_assoc]
  · rw [boundaryOffset_eq, wb_pb] at hlen'
    rw [List.length_append]
    omega

/-- Settles O11: at most 7 bits are pending, and a code has at most 16 bits, the terminal code 1 to 32. -/
theorem queueGrowthIsBounded : Obligations.QueueGrowthIsBounded := by
  intro cfg b value n x hn
  have hpb := b.pb.isLt
  obtain ⟨-, hcode⟩ := tableEntry_len_bounds (cfg.htab x)
  obtain ⟨hterm, hterm'⟩ := terminalEntry_len_bounds cfg.term
  obtain ⟨ws, hws, hwlen⟩ := wb_q_append b value n
  obtain ⟨ps, hps, hplen⟩ := wb_q_append b (cfg.htab x).code.toNat (cfg.htab x).len
  obtain ⟨fs, hfs, hflen⟩ := finishStream_q_append cfg b
  exact ⟨⟨ws, hws, by omega⟩, ⟨ps, hps, by omega⟩, ⟨fs, hfs, by omega, by omega⟩⟩

end Sys2Proof.Machine
end

section
/-! The Bit Buffer commands (40_bitbuffer.md R110 to R112, R114). -/

namespace Sys2Proof.Machine

/-- WRITE_BITS is turned away outside `S_IDLE`, outside `E_ACTIVE` and beyond 32 bits (40_bitbuffer.md R110, R114). -/
theorem exec_writeBits_refused {n : BitVec 6} {s : State} (h : s.seq ≠ .idle ∨ s.ph ≠ .active ∨ 32 < n.toNat)
    (value : BitVec 32) : exec (.writeBits value n) s = .next { s with resp := some .refused } :=
  exec_not_accepted rfl rfl (decide_eq_false fun ⟨hseq, hph, hn⟩ =>
    h.elim (· hseq) (·.elim (· hph) (Nat.not_lt.mpr hn)))

/-- READ_BYTE answers the front of `q` and removes it (40_bitbuffer.md R111). -/
theorem exec_readByte_idle {s : State} (h : s.seq = .idle) :
    exec .readByte s = complete (.byte s.bb.q.head?) { s with bb := { s.bb with q := s.bb.q.tail } } :=
  execReadByte_idle h

/-- BB_OFFSET answers the distance to the byte boundary and changes nothing (40_bitbuffer.md R112). -/
theorem exec_bbOffset_idle {s : State} (h : s.seq = .idle) :
    exec .bbOffset s = complete (.offset (BitVec.ofNat 3 (boundaryOffset s.bb))) s :=
  if_pos h

/-- Settles O12: the word is the encoded one, and the three conditions are those of the acceptance matrix. -/
theorem writeBitsCompletes : Obligations.WriteBitsCompletes := fun value _ =>
  ⟨decode_encode_command Config.cfg (i := .writeBits value _) rfl rfl, fun _ =>
    ⟨fun hseq hph hn => if_pos ⟨hseq, hph, hn⟩, fun h => exec_writeBits_refused h value⟩⟩

/-- Settles O13: the acceptance matrix asks for at most 32 bits, and no code has more. -/
theorem writesBeyond32BitsAreRefused : Obligations.WritesBeyond32BitsAreRefused :=
  ⟨fun value _ _ hn => exec_writeBits_refused (.inr (.inr hn)) value, fun cfg x =>
    ⟨(tableEntry_len_bounds (cfg.htab x)).2, (terminalEntry_len_bounds cfg.term).2⟩⟩

/-- Settles O14: the front of the queue is none exactly where the queue is empty. -/
theorem readByteCompletes : Obligations.ReadByteCompletes := by
  refine ⟨by decide, fun s => ⟨fun hseq hq => ?_, fun b rest hseq hq => ?_, fun hseq => ?_⟩⟩
  · have hbb : s.bb = { s.bb with q := [] } := by rw [← hq]
    rw [exec_readByte_idle hseq, complete_eq, hq, List.tail_nil, ← hbb]
    rfl
  · rw [exec_readByte_idle hseq, complete_eq, hq]
    rfl
  · exact exec_not_accepted rfl rfl (decide_eq_false hseq)

/-- Settles O15: a distance to the boundary is below 8, so three bits hold it. -/
theorem bbOffsetCompletes : Obligations.BbOffsetCompletes := by
  refine ⟨by decide, fun s => ⟨fun hseq => ⟨_, ?_, exec_bbOffset_idle hseq⟩, fun hseq => ?_⟩⟩
  · rw [BitVec.toNat_ofNat, boundaryOffset_eq]
    exact Nat.mod_eq_of_lt (Nat.mod_lt _ (by decide))
  · exact exec_not_accepted rfl rfl (decide_eq_false hseq)

end Sys2Proof.Machine
end

section
/-! Streaming equals batch (41_huffman_encoder.md R135): whatever is read out of `q` between the writes, the bytes read
and the bytes still in `q` are together those of a buffer from which nothing was read. -/

namespace Sys2Proof.Machine

/-! ## What a script reads and puts -/

/-- How many READ_BYTEs a script has. -/
def readCount (is : List Instr) : Nat := (is.filter fun i => decide (i = .readByte)).length

theorem readCount_cons (i : Instr) (is : List Instr) : readCount (i :: is) = readCount [i] + readCount is := by
  rw [readCount, ← List.singleton_append, List.filter_append, List.length_append]
  rfl

theorem bytesRead_append (rs rs' : List Response) : bytesRead (rs ++ rs') = bytesRead rs ++ bytesRead rs' :=
  List.filterMap_append

theorem isProbe_iff (i : Instr) : isProbe i = true ↔ i = .readByte ∨ i = .bbOffset := by
  simp [isProbe]

theorem bytesPut_append (is js : List Instr) : bytesPut (is ++ js) = bytesPut is ++ bytesPut js :=
  List.filterMap_append

theorem bytesPut_probe {i : Instr} (hi : isProbe i = true) : bytesPut [i] = [] := by
  rcases (isProbe_iff i).mp hi with rfl | rfl <;> rfl

/-! ## Running scripts -/

/-- A command that completes is run, and the script goes on behind it (30_encoding.md R99). -/
theorem runScript_cons {i : Instr} {is : List Instr} {s t u : State} {r : Result} {rs : List Response}
    (hexec : exec i s = complete r t) (hrest : runScript is { t with resp := some (.ok r) } = some (u, rs)) :
    runScript (i :: is) s = some (u, .ok r :: rs) := by
  simp [runScript, hexec, complete_eq, hrest]

theorem runScript_singleton {i : Instr} {s t : State} {r : Result} (hexec : exec i s = complete r t) :
    runScript [i] s = some ({ t with resp := some (.ok r) }, [.ok r]) :=
  runScript_cons hexec rfl

/-- Scripts run one behind the other. -/
theorem runScript_append {is js : List Instr} {s t u : State} {rs rs' : List Response}
    (his : runScript is s = some (t, rs)) (hjs : runScript js t = some (u, rs')) :
    runScript (is ++ js) s = some (u, rs ++ rs') := by
  induction is generalizing s rs with
  | nil =>
    cases his
    exact hjs
  | cons i is ih =>
    rw [List.cons_append]
    simp only [runScript] at his ⊢
    split at his
    · next s' hexec =>
      obtain ⟨⟨t', rs₁⟩, hrun, heq⟩ := Option.map_eq_some_iff.mp his
      cases heq
      simp [ih hrun]
    · cases his
    · cases his

/-! ## Bytes read out ahead of the others -/

/-- The buffer as it stands with the bytes `bs`, read out of it earlier, still in front of its queue. -/
def BitBuf.unread (bs : List Byte) (b : BitBuf) : BitBuf := { b with q := bs ++ b.q }

@[simp] theorem unread_q (bs : List Byte) (b : BitBuf) : (b.unread bs).q = bs ++ b.q := rfl

theorem unread_unread (bs cs : List Byte) (b : BitBuf) : (b.unread cs).unread bs = b.unread (bs ++ cs) := by
  simp [BitBuf.unread]

/-- A write looks at the pending bits alone, so it does not notice what was read out of `q` (40_bitbuffer.md R113). -/
theorem wb_unread (bs : List Byte) (b : BitBuf) (value n : Nat) :
    wb (b.unread bs) value n = (wb b value n).unread bs := by
  simp [wb, BitBuf.unread]

theorem putByte_unread (cfg : Cfg) (bs : List Byte) (b : BitBuf) (x : Byte) :
    putByte cfg (b.unread bs) x = (putByte cfg b x).unread bs :=
  wb_unread bs b _ _

theorem foldl_putByte_unread (cfg : Cfg) (bs : List Byte) (input : List Byte) (b : BitBuf) :
    input.foldl (putByte cfg) (b.unread bs) = (input.foldl (putByte cfg) b).unread bs :=
  List.foldl_hom (BitBuf.unread bs) (putByte_unread cfg bs)

theorem finishStream_unread (cfg : Cfg) (bs : List Byte) (b : BitBuf) :
    finishStream cfg (b.unread bs) = (finishStream cfg b).unread bs := by
  simp only [finishStream, wb_unread]
  rfl

/-! ## The commands of a stream -/

theorem exec_encStart_idle {s : State} (hidle : s.seq = .idle) :
    exec .encStart s = complete .none { s with bb := BitBuf.empty, ph := .active } :=
  if_pos hidle

theorem exec_encPut_active {s : State} (hidle : s.seq = .idle) (hactive : s.ph = .active) (x : Byte) :
    exec (.encPut x) s = complete .none { s with bb := putByte Config.cfg s.bb x } :=
  if_pos ⟨hidle, hactive⟩

theorem exec_encFinish_active {s : State} (hidle : s.seq = .idle) (hactive : s.ph = .active) :
    exec .encFinish s = complete .none { s with bb := finishStream Config.cfg s.bb, ph := .done } :=
  if_pos ⟨hidle, hactive⟩

/-- The state with `n` bytes taken off the front of `q`. -/
def State.drain (n : Nat) (s : State) : State := { s with bb := { s.bb with q := s.bb.q.drop n } }

/-- A probe in `S_IDLE` reads the front byte of `q`, if it is a READ_BYTE and there is one, and nothing else happens
(40_bitbuffer.md R111, R112). -/
theorem exec_probe {i : Instr} {s : State} (hidle : s.seq = .idle) (hi : isProbe i = true) :
    ∃ r, exec i s = complete r (s.drain (readCount [i])) ∧ bytesRead [.ok r] = s.bb.q.take (readCount [i]) := by
  rcases (isProbe_iff i).mp hi with rfl | rfl
  · refine ⟨.byte s.bb.q.head?, ?_, ?_⟩
    · rw [exec_readByte_idle hidle, ← List.drop_one]
      rfl
    · cases hq : s.bb.q <;> rfl
  · exact ⟨_, exec_bbOffset_idle hidle, rfl⟩

/-- One command of a message: the bytes it reads, put back, leave the buffer as its ENC_PUT alone makes it. -/
theorem exec_probe_or_put {i : Instr} {s : State} (hidle : s.seq = .idle) (hactive : s.ph = .active)
    (hi : isProbe i = true ∨ ∃ b, i = .encPut b) :
    ∃ r u, exec i s = complete r u ∧ u.seq = .idle ∧ u.ph = .active ∧
      u.bb.unread (bytesRead [.ok r]) = (bytesPut [i]).foldl (putByte Config.cfg) s.bb := by
  rcases hi with hprobe | ⟨x, rfl⟩
  · obtain ⟨r, hexec, hread⟩ := exec_probe hidle hprobe
    refine ⟨r, _, hexec, hidle, hactive, ?_⟩
    rw [hread, bytesPut_probe hprobe]
    simp [BitBuf.unread, State.drain]
  · exact ⟨.none, _, exec_encPut_active hidle hactive x, hidle, hactive, rfl⟩

/-! ## Whole scripts -/

/-- The ENC_PUTs of a message with probes between them: the bytes read, put back, leave the buffer as the ENC_PUTs alone
make it. -/
theorem runScript_message {pre : List Instr} {s : State} (hidle : s.seq = .idle) (hactive : s.ph = .active)
    (hpre : ∀ i ∈ pre, isProbe i = true ∨ ∃ b, i = .encPut b) :
    ∃ t rs, runScript pre s = some (t, rs) ∧ t.seq = .idle ∧ t.ph = .active ∧
      t.bb.unread (bytesRead rs) = (bytesPut pre).foldl (putByte Config.cfg) s.bb := by
  induction pre generalizing s with
  | nil => exact ⟨s, [], rfl, hidle, hactive, rfl⟩
  | cons i is ih =>
    obtain ⟨hi, his⟩ := List.forall_mem_cons.mp hpre
    obtain ⟨r, u, hexec, huidle, huactive, hu⟩ := exec_probe_or_put hidle hactive hi
    obtain ⟨t, rs, hrun, htidle, htactive, ht⟩ := ih (s := { u with resp := some (.ok r) }) huidle huactive his
    refine ⟨t, .ok r :: rs, runScript_cons hexec hrun, htidle, htactive, ?_⟩
    calc t.bb.unread (bytesRead (.ok r :: rs))
        = (t.bb.unread (bytesRead rs)).unread (bytesRead [.ok r]) := by
          rw [unread_unread, ← bytesRead_append, List.singleton_append]
      _ = (bytesPut is).foldl (putByte Config.cfg) (u.bb.unread (bytesRead [.ok r])) := by
          rw [ht, foldl_putByte_unread]
      _ = (bytesPut (i :: is)).foldl (putByte Config.cfg) s.bb := by
          rw [hu, ← List.foldl_append, ← bytesPut_append, List.singleton_append]

/-- Probes alone read as many bytes off the front of `q` as there are READ_BYTEs, as far as it goes. -/
theorem runScript_probes {is : List Instr} {s : State} (hidle : s.seq = .idle) (his : ∀ i ∈ is, isProbe i = true) :
    ∃ t rs, runScript is s = some (t, rs) ∧ t.seq = .idle ∧ t.bb.q = s.bb.q.drop (readCount is) ∧
      bytesRead rs = s.bb.q.take (readCount is) := by
  induction is generalizing s with
  | nil => exact ⟨s, [], rfl, hidle, rfl, rfl⟩
  | cons i is ih =>
    obtain ⟨hi, his⟩ := List.forall_mem_cons.mp his
    obtain ⟨r, hexec, hread⟩ := exec_probe hidle hi
    obtain ⟨t, rs, hrun, htidle, hq, hrs⟩ :=
      ih (s := { s.drain (readCount [i]) with resp := some (.ok r) }) hidle his
    refine ⟨t, .ok r :: rs, runScript_cons hexec hrun, htidle, ?_, ?_⟩
    · rw [hq, readCount_cons i is, ← List.drop_drop]
      rfl
    · rw [← List.singleton_append, bytesRead_append, hread, hrs, readCount_cons i is, List.take_add]
      rfl

/-- The whole script but for its last READ_BYTE: what the host has read and what is still in `q` are the compressed
message, and no more is in `q` than the probes after ENC_FINISH left. -/
theorem runScript_stream {s : State} {pre post : List Instr} (hidle : s.seq = .idle)
    (hpre : ∀ i ∈ pre, isProbe i = true ∨ ∃ b, i = .encPut b) (hpost : ∀ i ∈ post, isProbe i = true) :
    ∃ t rs, runScript ([.encStart] ++ pre ++ [.encFinish] ++ post) s = some (t, rs) ∧ t.seq = .idle ∧
      bytesRead rs ++ t.bb.q = compress Config.cfg (bytesPut pre) ∧
      t.bb.q.length ≤ (compress Config.cfg (bytesPut pre)).length - readCount post := by
  have hstart := runScript_singleton (exec_encStart_idle hidle)
  obtain ⟨t₁, rs₁, hrun₁, hidle₁, hactive₁, hbb₁⟩ := runScript_message
    (s := { s with bb := BitBuf.empty, ph := .active, resp := some (.ok .none) }) hidle rfl hpre
  have hfinish := runScript_singleton (exec_encFinish_active hidle₁ hactive₁)
  obtain ⟨t₂, rs₂, hrun₂, hidle₂, hq₂, hread₂⟩ := runScript_probes
    (s := { t₁ with bb := finishStream Config.cfg t₁.bb, ph := .done, resp := some (.ok .none) }) hidle₁ hpost
  have hbatch : bytesRead rs₁ ++ (finishStream Config.cfg t₁.bb).q = compress Config.cfg (bytesPut pre) := by
    rw [compress, ← hbb₁, finishStream_unread, unread_q]
  refine ⟨t₂, _, runScript_append (runScript_append (runScript_append hstart hrun₁) hfinish) hrun₂, hidle₂, ?_, ?_⟩
  · rw [bytesRead_append, bytesRead_append, bytesRead_append, hread₂, hq₂, ← hbatch]
    simp [bytesRead]
  · rw [hq₂, List.length_drop, ← hbatch, List.length_append]
    exact Nat.sub_le_sub_right (Nat.le_add_left ..) _

/-- Settles O22: the last READ_BYTE answers `none` exactly where the bytes read before it are all of the message. -/
theorem streamingEqualsBatch : Obligations.StreamingEqualsBatch := by
  intro s pre post hidle hpre hpost
  obtain ⟨t, rs, hrun, htidle, hbatch, hleft⟩ := runScript_stream hidle hpre hpost
  refine ⟨_, _, runScript_append hrun (runScript_singleton (exec_readByte_idle htidle)), ?_, ?_⟩
  · intro hlast
    have hempty : t.bb.q = [] := by simpa using hlast
    rw [bytesRead_append, ← hbatch, hempty]
    rfl
  · intro hreads
    have hempty : t.bb.q = [] := List.eq_nil_of_length_eq_zero (by rw [← readCount] at hreads; omega)
    rw [hempty, List.getLast?_concat]
    rfl

end Sys2Proof.Machine
end

section
/-! The bits of a compressed message: the codes in order, the terminal code, the padding (41_huffman_encoder.md R133,
R134, R138). -/

namespace Sys2Proof.Machine

/-! ## The stream of a buffer -/

theorem stream_length (b : BitBuf) : b.stream.length = 8 * b.q.length + b.pb.toNat := by
  rw [BitBuf.stream, List.length_append, bytesBits_length, codeBits_length]

/-- A buffer without pending bits stands for its bytes alone. -/
theorem stream_of_aligned {b : BitBuf} (h : b.pb = 0#3) : b.stream = bytesBits b.q := by
  rw [BitBuf.stream, h]
  exact List.append_nil _

/-- `pb` is the stream's length modulo 8 (40_bitbuffer.md R113), so the distance to the byte boundary is that of the
stream. -/
theorem boundaryOffset_eq_stream (b : BitBuf) : boundaryOffset b = (8 - b.stream.length % 8) % 8 := by
  have hpb := b.pb.isLt
  rw [boundaryOffset_eq, stream_length]
  omega

theorem putByte_stream (cfg : Cfg) (b : BitBuf) (x : Byte) :
    (putByte cfg b x).stream = b.stream ++ tableBits (cfg.htab x) :=
  wb_stream b _ _

theorem foldl_putByte_stream (cfg : Cfg) (input : List Byte) (b : BitBuf) :
    (input.foldl (putByte cfg) b).stream = b.stream ++ input.flatMap fun x => tableBits (cfg.htab x) := by
  induction input generalizing b with
  | nil => exact (List.append_nil _).symm
  | cons x xs ih => rw [List.foldl_cons, ih, putByte_stream, List.append_assoc, List.flatMap_cons]

/-- The end of a message appends the terminal code, then zero bits up to the byte boundary (41_huffman_encoder.md
R132). -/
theorem finishStream_stream (cfg : Cfg) (b : BitBuf) :
    (finishStream cfg b).stream = b.stream ++ termBits cfg.term ++
      List.replicate ((8 - (b.stream ++ termBits cfg.term).length % 8) % 8) false := by
  have hterm : (wb b cfg.term.code.toNat cfg.term.len).stream = b.stream ++ termBits cfg.term := wb_stream b _ _
  rw [finishStream, wb_stream, codeBits_zero, boundaryOffset_eq_stream, hterm]

/-! ## The bits of a message -/

/-- The code bits of a message: its bytes' codes in order, then the terminal code (41_huffman_encoder.md R134). -/
def messageBits (cfg : Cfg) (input : List Byte) : List Bool :=
  input.flatMap (fun x => tableBits (cfg.htab x)) ++ termBits cfg.term

theorem messageBits_cons (cfg : Cfg) (x : Byte) (input : List Byte) :
    messageBits cfg (x :: input) = tableBits (cfg.htab x) ++ messageBits cfg input := by
  rw [messageBits, List.flatMap_cons, List.append_assoc, messageBits]

theorem codeLength_cons (cfg : Cfg) (x : Byte) (input : List Byte) :
    codeLength cfg (x :: input) = (cfg.htab x).len + codeLength cfg input := by
  rw [codeLength, List.map_cons, List.sum_cons, Nat.add_assoc, codeLength]

theorem messageBits_length (cfg : Cfg) (input : List Byte) : (messageBits cfg input).length = codeLength cfg input := by
  induction input with
  | nil => exact (codeBits_length _ _).trans (Nat.zero_add _).symm
  | cons x xs ih => rw [messageBits_cons, List.length_append, ih, tableBits, codeBits_length, codeLength_cons]

/-- The compressed message shows its code bits and the padding (41_huffman_encoder.md R133). -/
theorem bytesBits_compress (cfg : Cfg) (input : List Byte) :
    bytesBits (compress cfg input) =
      messageBits cfg input ++ List.replicate ((8 - codeLength cfg input % 8) % 8) false := by
  have hcodes : (input.foldl (putByte cfg) BitBuf.empty).stream = input.flatMap fun x => tableBits (cfg.htab x) :=
    foldl_putByte_stream cfg input BitBuf.empty
  rw [compress, ← stream_of_aligned (finishStream_aligned cfg _).1, finishStream_stream, hcodes, ← messageBits,
    messageBits_length]

/-- Settles O19: the length law counts the output's bits. -/
theorem compressedBitsAndLength : Obligations.CompressedBitsAndLength := by
  intro cfg input
  refine ⟨bytesBits_compress cfg input, ?_, compress_ne_nil cfg input⟩
  rw [← bytesBits_length, bytesBits_compress, List.length_append, messageBits_length, List.length_replicate]

/-- Settles O20: the code bits of the empty message are those of the terminal code. -/
theorem emptyMessageIsTheTerminalCode : Obligations.EmptyMessageIsTheTerminalCode := by
  intro cfg
  obtain ⟨-, hlen, -⟩ := compressedBitsAndLength cfg []
  have hcode : codeLength cfg [] = cfg.term.len := Nat.zero_add _
  rw [hcode] at hlen
  exact ⟨⟨_, Nat.mod_lt _ (by decide), bytesBits_compress cfg []⟩, by omega⟩

end Sys2Proof.Machine
end

section
/-! The reference decoder gives a message back from its compression (41_huffman_encoder.md R137). -/

namespace Sys2Proof.Machine

/-- In a `PrefixCode` at most one symbol begins a bit string (00_scope.md R6 (e)). -/
theorem PrefixCode.unique {cfg : Cfg} (hcode : PrefixCode cfg) {x y : Option Byte} {bits : List Bool}
    (hx : symbolBits cfg x <+: bits) (hy : symbolBits cfg y <+: bits) : x = y :=
  (List.prefix_or_prefix_of_prefix hx hy).elim (hcode x y) fun h => (hcode y x h).symm

/-- At the terminal code the decoder stops. -/
theorem decodeBits_termBits (cfg : Cfg) (fuel : Nat) (rest : List Bool) :
    decodeBits cfg (fuel + 1) (termBits cfg.term ++ rest) = some [] :=
  if_pos (List.isPrefixOf_iff_prefix.mpr (List.prefix_append _ _))

/-- Searching all bytes for a property that one byte alone has finds that byte. -/
theorem find?_bytes_eq {p : Byte → Bool} {x : Byte} (hx : p x = true) (hunique : ∀ y, p y = true → y = x) :
    ((List.range 256).map (BitVec.ofNat 8)).find? p = some x := by
  have hmem : x ∈ (List.range 256).map (BitVec.ofNat 8) :=
    List.mem_map.mpr ⟨x.toNat, List.mem_range.mpr x.isLt, BitVec.ofNat_toNat 8 x⟩
  obtain ⟨y, hy⟩ := Option.isSome_iff_exists.mp (List.find?_isSome.mpr ⟨x, hmem, hx⟩)
  rw [hy, hunique y (List.find?_some hy)]

/-- At a byte's code the decoder outputs the byte and skips the code: no other symbol begins there. -/
theorem decodeBits_tableBits {cfg : Cfg} (hcode : PrefixCode cfg) (x : Byte) (fuel : Nat) (rest : List Bool) :
    decodeBits cfg (fuel + 1) (tableBits (cfg.htab x) ++ rest) = (decodeBits cfg fuel rest).map (x :: ·) := by
  have hx : symbolBits cfg (some x) <+: tableBits (cfg.htab x) ++ rest := List.prefix_append _ _
  have hterm : ¬ (termBits cfg.term).isPrefixOf (tableBits (cfg.htab x) ++ rest) = true := fun h =>
    nomatch hcode.unique (x := none) (List.isPrefixOf_iff_prefix.mp h) hx
  have hfind := find?_bytes_eq (p := fun b => (tableBits (cfg.htab b)).isPrefixOf (tableBits (cfg.htab x) ++ rest))
    (List.isPrefixOf_iff_prefix.mpr hx)
    fun y hy => Option.some.inj (hcode.unique (x := some y) (List.isPrefixOf_iff_prefix.mp hy) hx)
  have hskip : (tableBits (cfg.htab x) ++ rest).drop (cfg.htab x).len = rest :=
    List.drop_left' (codeBits_length _ _)
  rw [decodeBits, if_neg hterm, hfind]
  simp only [hskip]

/-- The decoder reads a message off its code bits, whatever stands behind them. -/
theorem decodeBits_messageBits {cfg : Cfg} (hcode : PrefixCode cfg) (input : List Byte) (rest : List Bool) {fuel : Nat}
    (hfuel : input.length < fuel) : decodeBits cfg fuel (messageBits cfg input ++ rest) = some input := by
  induction input generalizing fuel with
  | nil =>
    obtain ⟨fuel, rfl⟩ := Nat.exists_eq_add_one.mpr hfuel
    exact decodeBits_termBits cfg fuel rest
  | cons x xs ih =>
    obtain ⟨fuel, rfl⟩ := Nat.exists_eq_add_one.mpr (Nat.zero_lt_of_lt hfuel)
    rw [messageBits_cons, List.append_assoc, decodeBits_tableBits hcode, ih (Nat.lt_of_succ_lt_succ hfuel),
      Option.map_some]

/-- Every symbol has at least one bit (00_scope.md R6 (a), (b)). -/
theorem length_lt_codeLength (cfg : Cfg) (input : List Byte) : input.length < codeLength cfg input := by
  induction input with
  | nil => exact Nat.lt_of_lt_of_le (terminalEntry_len_bounds cfg.term).1 (Nat.le_add_left ..)
  | cons x xs ih =>
    have hx := (tableEntry_len_bounds (cfg.htab x)).1
    rw [codeLength_cons, List.length_cons]
    omega

/-- Settles O23: the output begins with the message's code bits, which are at least as many as the symbols to read. -/
theorem compressionRoundTrip : Obligations.CompressionRoundTrip := by
  intro cfg input hcode
  refine ⟨?_, _, Nat.mod_lt _ (by decide), bytesBits_compress cfg input⟩
  rw [refDecode, bytesBits_compress]
  apply decodeBits_messageBits hcode
  rw [List.length_append, messageBits_length]
  exact Nat.lt_add_right _ (length_lt_codeLength cfg input)

end Sys2Proof.Machine
end

section
/-! The encoder commands (41_huffman_encoder.md R130 to R132). -/

namespace Sys2Proof.Machine

/-- The word of an ENC_PUT, its fields before the byte written as one number (30_encoding.md R93). -/
theorem encode_encPut (cfg : Cfg) (x : Byte) : encode cfg (.encPut x) = .command (0x3000000000#40 ++ x) [] := by
  have hword : (3#4 ++ 0#6 ++ 0#6 ++ (0#24 ++ x) : CommandWord) = 0x3000000000#40 ++ x := BitVec.append_assoc' ..
  rw [encode, commandWord, hword]

theorem exec_encPut_refused {s : State} (h : s.seq ≠ .idle ∨ s.ph ≠ .active) (x : Byte) :
    exec (.encPut x) s = .next { s with resp := some .refused } :=
  exec_not_accepted rfl rfl (decide_eq_false (not_and_or.mpr h))

theorem exec_encFinish_refused {s : State} (h : s.seq ≠ .idle ∨ s.ph ≠ .active) :
    exec .encFinish s = .next { s with resp := some .refused } :=
  exec_not_accepted rfl rfl (decide_eq_false (not_and_or.mpr h))

/-- Settles O16: the acceptance matrix asks for `S_IDLE` alone. -/
theorem encStartCompletes : Obligations.EncStartCompletes :=
  ⟨by decide, fun _ => ⟨exec_encStart_idle, fun hseq => exec_not_accepted rfl rfl (decide_eq_false hseq)⟩⟩

/-- Settles O17: the word is the encoded one, and the effect is the write of the byte's code. -/
theorem encPutCompletes : Obligations.EncPutCompletes := by
  intro x s
  have hdecode := decode_encode_command Config.cfg (i := .encPut x) rfl rfl
  rw [encode_encPut] at hdecode
  exact ⟨hdecode, fun hseq hph => exec_encPut_active hseq hph x, fun h => exec_encPut_refused h x⟩

/-- Settles O18: the buffer after the two writes is that of `finishStream`, and in `E_DONE` the encoder is not
active. -/
theorem encFinishCompletes : Obligations.EncFinishCompletes := by
  refine ⟨by decide, fun s => ⟨fun hseq hph => ?_, exec_encFinish_refused, fun hseq hdone => ?_⟩⟩
  · obtain ⟨hpb, hpv⟩ := finishStream_aligned Config.cfg s.bb
    exact ⟨finishStream Config.cfg s.bb, rfl, hpb, hpv, exec_encFinish_active hseq hph⟩
  · have hph : s.ph ≠ .active := by rw [hdone]; decide
    exact ⟨exec_encPut_refused (.inr hph), fun v _ => exec_writeBits_refused (.inr (.inl hph)) v, _, _,
      exec_readByte_idle hseq, rfl⟩

end Sys2Proof.Machine
end

section
/-! A field that does not fit is not read (42_field_codec.md R150), and a string field is checked whole before it is
trimmed (42_field_codec.md R154). -/

namespace Sys2Proof.Machine

theorem rdField_short {rd : Nat → Option Byte} {x : Ctx} {w : Nat} (h : x.lim - x.c < w) :
    rdField rd x w = .raise .incompleteBuffer x.c := if_pos h

/-- Settles O25: the need check fails, and the fault passes through the conversion of the bytes. -/
theorem fieldReadsCheckBeforeReading : Obligations.FieldReadsCheckBeforeReading := by
  intro rd x
  refine ⟨fun h => ?_, fun h => ?_, fun h => ?_⟩
  · rw [rdU8, rdField_short h, andThen_raise]
  · rw [rdU16, rdField_short h, andThen_raise]
  · rw [rdU32, rdField_short h, andThen_raise]

/-- Settles O26: the need check fails, or the raw field is read whole and `textOf` decides on it. -/
theorem stringReadsValidateThenTrim : Obligations.StringReadsValidateThenTrim := by
  intro check rd c lim
  refine ⟨fun h => ?_, fun raw hlen hle hmem => ?_⟩
  · rw [rdStr, rdRaw, strW, rdField_short h, andThen_raise]
  · have hraw : rdRaw rd { c := c, lim := lim } = .ok raw { c := c + 30, lim := lim } :=
      rdField_ok (Nat.le_sub_of_add_le' hle) ((memRead_ok_iff rd c 30 raw).mpr ⟨hlen, hmem⟩)
    rw [rdStr, hraw, andThen_ok]
    exact ⟨fun hv => by rw [textOf_eq_some hv], fun hv => by rw [textOf_eq_none hv]⟩

end Sys2Proof.Machine
end

section
/-! `trim` is the longest beginning that does not end in `0x00` (42_field_codec.md R156). It unfolds to the library's
`List.rdropWhile` at the byte `0x00`, whose lemmas give those about `trim`. -/

namespace Sys2Proof.Machine

theorem trim_concat_zero (raw : List Byte) : trim (raw ++ [0#8]) = trim raw :=
  List.rdropWhile_concat_pos _ _ _ rfl

theorem trim_concat_of_ne_zero (raw : List Byte) {b : Byte} (h : b ≠ 0#8) : trim (raw ++ [b]) = raw ++ [b] :=
  List.rdropWhile_concat_neg _ _ _ (mt beq_iff_eq.mp h)

theorem trim_prefix (raw : List Byte) : trim raw <+: raw := List.rdropWhile_prefix _ raw

theorem trim_getLast?_ne_zero (raw : List Byte) : (trim raw).getLast? ≠ some 0#8 := by
  intro h
  obtain ⟨hne, hlast⟩ := List.mem_getLast?_eq_getLast h
  exact List.rdropWhile_last_not _ raw hne (beq_iff_eq.mpr hlast.symm)

/-- Every beginning of `raw` that ends in no padding byte begins `trim raw`: by induction from the end of `raw`, where a
padding byte ends no such beginning and is trimmed, and any other last byte keeps `raw` whole. -/
theorem isPrefix_trim {p raw : List Byte} (hp : p <+: raw) (hlast : p.getLast? ≠ some 0#8) : p <+: trim raw := by
  induction raw using List.reverseRecOn with
  | nil => exact hp
  | append_singleton raw b ih =>
    by_cases hb : b = 0#8
    · subst hb
      rw [trim_concat_zero]
      rcases List.prefix_concat_iff.mp hp with rfl | hp
      · exact absurd List.getLast?_concat hlast
      · exact ih hp
    · rwa [trim_concat_of_ne_zero raw hb]

/-- Settles O28: what begins `trim raw` is no longer than it. -/
theorem trimIsTheLongestUnpaddedBeginning : Obligations.TrimIsTheLongestUnpaddedBeginning :=
  fun raw => ⟨trim_prefix raw, trim_getLast?_ne_zero raw, fun _ hp hlast => (isPrefix_trim hp hlast).length_le⟩

end Sys2Proof.Machine
end

section
/-! What an inbound packet does while the sequencer runs (43_packets_inbound.md R170 to R174): each is a packet step
(45_sequencer.md R211), so the three ways of a packet step are said first, each as one record update. -/

namespace Sys2Proof.Machine

/-! ## The three ways of a packet step -/

/-- A packet that fits and whose rule does not fault commits its effect. -/
theorem packetStep_commit {len : Nat} {s : State} (hrun : s.seq = .run) (hfit : s.cur + 1 + len ≤ s.nRx)
    (e : PacketEffect) : packetStep len (.ok e) s = .next { s with
      txq := s.txq ++ e.frames, trace := s.trace ++ [e.event], cur := s.cur + 1 + len, unk := s.unk || e.skips } := by
  rw [packetStep_run hrun, packetState_commit hfit, commit_eq]

/-- A commit that skips no opcode leaves `unk` alone. -/
theorem packetStep_commit_frames {len : Nat} {s : State} (hrun : s.seq = .run) (hfit : s.cur + 1 + len ≤ s.nRx)
    (ev : Event) (fs : List Frame) : packetStep len (.ok { event := ev, frames := fs, skips := false }) s =
      .next { s with txq := s.txq ++ fs, trace := s.trace ++ [ev], cur := s.cur + 1 + len } := by
  rw [packetStep_commit hrun hfit, Bool.or_false]

/-- A packet that fits and whose text is invalid faults with cause 2 (60_exceptions.md R230, R239). -/
theorem packetStep_invalidUtf8 {len : Nat} {s : State} (hrun : s.seq = .run) (hfit : s.cur + 1 + len ≤ s.nRx) :
    packetStep len (.error .invalidUtf8) s = .next { s with cause := 2#3, seq := .fault } := by
  rw [packetStep_run hrun, packetState_error hfit]
  rfl

/-- A packet that does not fit faults with cause 1, whatever its rule yields (60_exceptions.md R230, R239). -/
theorem packetStep_short {len : Nat} {s : State} (hrun : s.seq = .run) (hshort : s.nRx < s.cur + 1 + len)
    (body : Except FatalFault PacketEffect) :
    packetStep len body s = .next { s with cause := 1#3, seq := .fault } := by
  rw [packetStep_run hrun, packetState_short hshort]
  rfl

/-! ## Rules with two text fields -/

/-- The rule of a packet with two text fields: the first is checked, then the second (60_exceptions.md R238), and the
trimmed strings make up the event. `exec_accountLogin_eq` and `exec_postLogin_eq` tie it to the model. -/
def twoTexts (check : TextCheck) (raw0 raw1 : List Byte) (event : List Byte → List Byte → Event)
    (frames : List Frame) : Except FatalFault PacketEffect :=
  match textOf check raw0 with
  | none => .error .invalidUtf8
  | some t0 =>
    match textOf check raw1 with
    | none => .error .invalidUtf8
    | some t1 => .ok { event := event t0 t1, frames := frames, skips := false }

theorem exec_accountLogin_eq (username password : List Byte) (tail : Byte) (s : State) :
    exec (.accountLogin username password tail) s = packetStep accountLoginBody
      (twoTexts Config.cfg.textCheck username password (.accountLogin · · tail) [serverListRecord Config.cfg]) s := rfl

theorem exec_postLogin_eq (key : BitVec 32) (str0 str1 : List Byte) (s : State) :
    exec (.postLogin key str0 str1) s = packetStep postLoginBody
      (twoTexts Config.cfg.textCheck str0 str1 (.postLogin key)
        [featuresFrame Config.cfg, charListFrame Config.cfg]) s := rfl

/-- Two valid strings are reported trimmed (42_field_codec.md R156), and the packet commits. -/
theorem packetStep_twoTexts_valid {len : Nat} {s : State} {check : TextCheck} {raw0 raw1 : List Byte}
    (hrun : s.seq = .run) (hfit : s.cur + 1 + len ≤ s.nRx) (h0 : validText check raw0 = true)
    (h1 : validText check raw1 = true) (event : List Byte → List Byte → Event) (fs : List Frame) :
    packetStep len (twoTexts check raw0 raw1 event fs) s = .next { s with
      txq := s.txq ++ fs, trace := s.trace ++ [event (trim raw0) (trim raw1)], cur := s.cur + 1 + len } := by
  simp only [twoTexts, textOf_eq_some h0, textOf_eq_some h1]
  exact packetStep_commit_frames hrun hfit _ fs

/-- An invalid string, the first or the second, faults with cause 2. -/
theorem packetStep_twoTexts_invalid {len : Nat} {s : State} {check : TextCheck} {raw0 raw1 : List Byte}
    (hrun : s.seq = .run) (hfit : s.cur + 1 + len ≤ s.nRx)
    (h : validText check raw0 = false ∨ validText check raw1 = false) (event : List Byte → List Byte → Event)
    (fs : List Frame) :
    packetStep len (twoTexts check raw0 raw1 event fs) s = .next { s with cause := 2#3, seq := .fault } := by
  have hbody : twoTexts check raw0 raw1 event fs = .error .invalidUtf8 := by
    rcases h with h0 | h1
    · rw [twoTexts, textOf_eq_none h0]
    · rw [twoTexts, textOf_eq_none h1]
      cases textOf check raw0 <;> rfl
  rw [hbody]
  exact packetStep_invalidUtf8 hrun hfit

/-! ## The five packets -/

/-- Settles O29: LOGIN_SEED is a packet step with a body of 20 bytes whose rule cannot fault. -/
theorem loginSeedCompletes : Obligations.LoginSeedCompletes := by
  intro seed major minor revision patch s hrun
  refine ⟨fun hfit => ?_, fun hshort => packetStep_short hrun hshort _⟩
  calc exec (.loginSeed seed major minor revision patch) s
    _ = .next { s with
          txq := s.txq ++ [], trace := s.trace ++ [.loginSeed seed major minor revision patch],
          cur := s.cur + 21 } := packetStep_commit_frames hrun hfit _ []
    _ = _ := by rw [List.append_nil]

/-- Settles O30: ACCOUNT_LOGIN is a packet step with a body of 61 bytes whose rule faults on an invalid string alone. -/
theorem accountLoginCompletes : Obligations.AccountLoginCompletes := by
  intro username password tail s hrun
  rw [exec_accountLogin_eq]
  exact ⟨fun hfit hu hp => packetStep_twoTexts_valid hrun hfit hu hp _ _,
    fun hshort => packetStep_short hrun hshort _, fun hfit h => packetStep_twoTexts_invalid hrun hfit h _ _⟩

/-- Settles O31: SERVER_SELECT is a packet step with a body of 2 bytes whose rule cannot fault. -/
theorem serverSelectCompletes : Obligations.ServerSelectCompletes :=
  fun _ _ hrun =>
    ⟨fun hfit => packetStep_commit_frames hrun hfit _ _, fun hshort => packetStep_short hrun hshort _⟩

/-- Settles O32: POST_LOGIN is a packet step with a body of 64 bytes whose rule faults on an invalid string alone. -/
theorem postLoginCompletes : Obligations.PostLoginCompletes := by
  intro key str0 str1 s hrun
  rw [exec_postLogin_eq]
  exact ⟨fun hfit h0 h1 => packetStep_twoTexts_valid hrun hfit h0 h1 _ _,
    fun hshort => packetStep_short hrun hshort _, fun hfit h => packetStep_twoTexts_invalid hrun hfit h _ _⟩

/-- Settles O33: IGNORED is a packet step with a body of `IGN_LEN(op)` bytes whose rule cannot fault; it sends no frame
and, unlike the others, sets `unk`. -/
theorem ignoredCompletes : Obligations.IgnoredCompletes := by
  intro op s hrun
  refine ⟨fun hfit => ?_, fun hshort => packetStep_short hrun hshort _⟩
  calc exec (.ignored op) s
    _ = .next { s with
          txq := s.txq ++ [], trace := s.trace ++ [.unknown op s.cur], cur := s.cur + 1 + Config.cfg.ignLen op,
          unk := s.unk || true } := packetStep_commit hrun hfit _
    _ = _ := by rw [List.append_nil, Bool.or_true]

end Sys2Proof.Machine
end

section
/-! The outbound records (44_packets_outbound.md R190 to R194): a record is assembled from front to back, each write
taking the place of the next zero bytes, and a running sequencer appends its frame to `txq`. -/

namespace Sys2Proof.Machine

/-! ## Assembly -/

/-- A write behind what is assembled so far replaces as many of the zero bytes that follow (42_field_codec.md R157,
R161). -/
theorem wrBytes_append_zeros {B s : List Byte} {a m : Nat} (ha : B.length = a) (hm : s.length ≤ m) :
    wrBytes (B ++ List.replicate m 0#8) a s = B ++ s ++ List.replicate (m - s.length) 0#8 := by
  subst ha
  induction s generalizing B m with
  | nil => simp [wrBytes]
  | cons v s ih =>
    obtain ⟨m, rfl⟩ := Nat.exists_eq_add_of_lt hm
    have hset : (B ++ List.replicate (s.length + m + 1) 0#8).set B.length v =
        B ++ [v] ++ List.replicate (s.length + m) 0#8 := by simp [List.replicate_succ]
    have hlen : B.length + 1 = (B ++ [v]).length := by simp
    rw [wrBytes, hset, hlen, ih (Nat.le_add_right ..)]
    simp

/-- A byte holds the low-order 8 bits of what is put into it. -/
theorem byte_mod_256 (v : Nat) : BitVec.ofNat 8 (v % 256) = BitVec.ofNat 8 v :=
  BitVec.eq_of_toNat_eq (Nat.mod_mod v 256)

theorem beBytes_two (v : Nat) : beBytes v 2 = [BitVec.ofNat 8 (v / 256), BitVec.ofNat 8 v] := by
  simp [beBytes, byte_mod_256]

theorem beBytes_four (v : Nat) :
    beBytes v 4 = [BitVec.ofNat 8 (v / 2 ^ 24), BitVec.ofNat 8 (v / 2 ^ 16), BitVec.ofNat 8 (v / 2 ^ 8),
      BitVec.ofNat 8 v] := by
  simp [beBytes, byte_mod_256, Nat.div_div_eq_div_mul]

/-- The fields of the redirect in order: no byte is left as padding (44_packets_outbound.md R191). -/
theorem serverRedirectRecord_eq (cfg : Cfg) :
    serverRedirectRecord cfg =
      [0x8C#8] ++ cfg.redirAddr.toList ++ beBytes cfg.redirPort.toNat 2 ++ beBytes cfg.redirKey.toNat 4 := by
  have hop : wrU8 (asmNew 11) 0 0x8C#8 = [0x8C#8] ++ List.replicate 10 0#8 :=
    wrBytes_append_zeros (B := []) (s := [0x8C#8]) (m := 11) rfl (by decide)
  simp only [serverRedirectRecord, hop, wrU16, wrU32, wrBytes_append_zeros, List.length_append, List.length_singleton,
    Vector.length_toList, beBytes_length, Nat.reduceAdd, Nat.reduceSub, Nat.reduceLeDiff, List.replicate_zero,
    List.append_nil]

/-- Settles O43: the record is its four fields in order, the port and the key big-endian. -/
theorem serverRedirectLayout : Obligations.ServerRedirectLayout := by
  intro cfg
  refine ⟨?_, serverRedirectRecord_length cfg⟩
  rw [serverRedirectRecord_eq, beBytes_two, beBytes_four, byte_mod_256]

/-! ## Enqueueing -/

theorem sendRecord_run {s : State} (hrun : s.seq = .run) (f : Frame) :
    sendRecord f s = .next { s with txq := s.txq ++ [f] } :=
  (sendRecord_next_iff f s _).mpr ⟨hrun, rfl⟩

/-- Settles O44: each record is a `sendRecord` of its frame, and every frame of the dispatch table is non-empty. -/
theorem recordsAreEnqueuedWhole : Obligations.RecordsAreEnqueuedWhole := by
  intro s hrun
  have hlist : serverListRecord Config.cfg ≠ [] :=
    responsesOf_ne_nil Config.cfg .serverList _ (List.mem_singleton_self _)
  have hredirect : serverRedirectRecord Config.cfg ≠ [] :=
    responsesOf_ne_nil Config.cfg .serverRedirect _ (List.mem_singleton_self _)
  exact ⟨sendRecord_run hrun _, sendRecord_run hrun _, sendRecord_run hrun _, sendRecord_run hrun _,
    hlist, hredirect, compress_ne_nil _ _, compress_ne_nil _ _⟩

end Sys2Proof.Machine
end

section
/-! SUPPORT. The sequencer's own move, while the host holds in `S_RUN` (45_sequencer.md R211, R212, R218). -/

namespace Sys2Proof.Machine

/-- While the host holds in `S_RUN`, the sequencer's move comes next, a hold taken off the host's moves. -/
theorem nextWork_held_run {s : State} (hrun : s.seq = .run) (hhold : hostHolds s.port = true) :
    nextWork s = packetWork { s with port := s.port.tail } :=
  (nextWork_hostHolds hhold).trans (if_pos hrun)

theorem packetWork_end {s : State} (hcur : s.cur = s.nRx) : packetWork s = .settled (.next (endPass s)) :=
  if_pos hcur

theorem packetWork_ok {s : State} {i : Instr} (hcur : s.cur ≠ s.nRx)
    (hdecode : decodePacket (rxRead s) s.cur s.nRx = .ok i) : packetWork s = .run i s := by
  rw [packetWork, if_neg hcur, hdecode]

theorem packetWork_short {s : State} {op : Byte} (hcur : s.cur ≠ s.nRx)
    (hdecode : decodePacket (rxRead s) s.cur s.nRx = .error (.short op)) :
    packetWork s = .settled (.next (takeFault .incompleteBuffer s)) := by
  rw [packetWork, if_neg hcur, hdecode]

/-- Settles O1: the host's word is next, and its instruction is what it decodes to. -/
theorem stepRunsTheDecodedCommand : Obligations.StepRunsTheDecodedCommand := by
  intro s w data rest i hport hdecode
  have hwork (u : State) : commandWork w data u = .run i u := by rw [commandWork, hdecode]
  exact step_of_run ((nextWork_issue hport).trans (hwork _))

/-- Settles O2: with no move left as with a hold, the packet that the bytes at `cur` decode to is next. -/
theorem stepRunsTheDecodedPacket : Obligations.StepRunsTheDecodedPacket := by
  intro s i hrun hcur hdecode
  have hheld (p : List HostMove) : heldWork { s with port := p } = .run i { s with port := p } :=
    (if_pos hrun).trans (packetWork_ok (s := { s with port := p }) hcur hdecode)
  exact ⟨fun hport => step_of_run ((nextWork_nil hport).trans (hheld s.port)),
    fun rest hport => step_of_run ((nextWork_hold hport).trans (hheld rest))⟩

/-- Settles O37: at the end of the buffer the sequencer's move is the end of the pass. -/
theorem endOfPass : Obligations.EndOfPass := by
  intro s hrun hcur hhold
  exact step_of_settled ((nextWork_held_run hrun hhold).trans (packetWork_end hcur))

/-- Settles O51: outside `S_RUN` a hold has no work to do. -/
theorem idleInstancesWait : Obligations.IdleInstancesWait := by
  intro s hrun hhold
  exact step_of_settled ((nextWork_hostHolds hhold).trans (if_neg hrun))

end Sys2Proof.Machine
end

section
/-! The machine's packet step is the spec's pseudocode (45_sequencer.md R211): the machine reads a whole packet raw,
then runs its rule, where the pseudocode checks each field as it reads it. In a sound state no read can fail but for the
packet's length, so both come to the same rule. -/

namespace Sys2Proof.Machine

/-- A field by field reading of a packet tells what the packet's rule yields: its effect, or its fault. -/
inductive Tells : Except FatalFault PacketEffect → Read PacketEffect → Prop
  | ok (e : PacketEffect) (x : Ctx) : Tells (.ok e) (.ok e x)
  | error (f : FatalFault) (info : Nat) : Tells (.error f) (.raise f info)

/-- Decoding a packet and reading it field by field agree in `s`: what is decoded is a packet step with body length
`len`, and the field by field reading tells its rule. -/
def ReadsAgree (s : State) (len : Nat) (decoded : Except Reject Instr) (reference : Read PacketEffect) : Prop :=
  ∃ i body, decoded = .ok i ∧ exec i s = packetStep len body s ∧ Tells body reference

/-! ## Fields that fit, in a sound state -/

theorem rdField_map_rxRead {s : State} (hinv : s.Inv) {c lim w : Nat} (hlim : lim ≤ s.nRx) (hfit : c + w ≤ lim)
    {α : Type} (g : List Byte → α) :
    ∃ v, ((rdField (rxRead s) { c := c, lim := lim } w).andThen fun bs x => .ok (g bs) x) =
      .ok v { c := c + w, lim := lim } := by
  obtain ⟨bs, -, hread⟩ := rdField_rxRead hinv hlim hfit
  exact ⟨g bs, by rw [hread, andThen_ok]⟩

theorem rdU8_rxRead {s : State} (hinv : s.Inv) {c lim : Nat} (hlim : lim ≤ s.nRx) (hfit : c + 1 ≤ lim) :
    ∃ v, rdU8 (rxRead s) { c := c, lim := lim } = .ok v { c := c + 1, lim := lim } :=
  rdField_map_rxRead hinv hlim hfit _

theorem rdU16_rxRead {s : State} (hinv : s.Inv) {c lim : Nat} (hlim : lim ≤ s.nRx) (hfit : c + 2 ≤ lim) :
    ∃ v, rdU16 (rxRead s) { c := c, lim := lim } = .ok v { c := c + 2, lim := lim } :=
  rdField_map_rxRead hinv hlim hfit _

theorem rdU32_rxRead {s : State} (hinv : s.Inv) {c lim : Nat} (hlim : lim ≤ s.nRx) (hfit : c + 4 ≤ lim) :
    ∃ v, rdU32 (rxRead s) { c := c, lim := lim } = .ok v { c := c + 4, lim := lim } :=
  rdField_map_rxRead hinv hlim hfit _

theorem rdRaw_rxRead {s : State} (hinv : s.Inv) {c lim : Nat} (hlim : lim ≤ s.nRx) (hfit : c + 30 ≤ lim) :
    ∃ raw, rdRaw (rxRead s) { c := c, lim := lim } = .ok raw { c := c + 30, lim := lim } := by
  obtain ⟨raw, -, hread⟩ := rdField_rxRead hinv hlim hfit
  exact ⟨raw, hread⟩

/-- Two strings read one after another with RD_STR tell the rule on their raw bytes: the first invalid one faults
before the second is looked at (60_exceptions.md R238). -/
theorem tells_twoTexts {rd : Nat → Option Byte} {x x' x'' : Ctx} {raw0 raw1 : List Byte}
    (h0 : rdRaw rd x = .ok raw0 x') (h1 : rdRaw rd x' = .ok raw1 x'') {check : TextCheck}
    {event : List Byte → List Byte → Event} {frames : List Frame}
    {k : List Byte → List Byte → Ctx → Read PacketEffect}
    (hk : ∀ t0 t1, ∃ y, k t0 t1 x'' = .ok { event := event t0 t1, frames := frames, skips := false } y) :
    Tells (twoTexts check raw0 raw1 event frames)
      ((rdStr check rd x).andThen fun t0 x => (rdStr check rd x).andThen fun t1 x => k t0 t1 x) := by
  rw [rdStr, h0, andThen_ok, twoTexts]
  cases textOf check raw0 with
  | none => exact .error _ _
  | some t0 =>
    rw [andThen_ok, rdStr, h1, andThen_ok]
    cases textOf check raw1 with
    | none => exact .error _ _
    | some t1 =>
      obtain ⟨y, hy⟩ := hk t0 t1
      rw [andThen_ok, hy]
      exact .ok _ _

/-! ## The five packet rules -/

section Rules

variable {s : State} {c lim : Nat} (hinv : s.Inv) (hlim : lim ≤ s.nRx)
include hinv hlim

theorem loginSeed_agrees (op : Byte) (hfit : c + loginSeedBody ≤ lim) :
    ReadsAgree s loginSeedBody (ofRead op (readLoginSeed (rxRead s) { c := c, lim := lim }))
      (refLoginSeed (rxRead s) { c := c, lim := lim }) := by
  rw [loginSeedBody] at hfit
  obtain ⟨seed, hseed⟩ := rdU32_rxRead hinv (c := c) hlim (by omega)
  obtain ⟨major, hmajor⟩ := rdU32_rxRead hinv (c := c + 4) hlim (by omega)
  obtain ⟨minor, hminor⟩ := rdU32_rxRead hinv (c := c + 4 + 4) hlim (by omega)
  obtain ⟨revision, hrevision⟩ := rdU32_rxRead hinv (c := c + 4 + 4 + 4) hlim (by omega)
  obtain ⟨patch, hpatch⟩ := rdU32_rxRead hinv (c := c + 4 + 4 + 4 + 4) hlim (by omega)
  refine ⟨.loginSeed seed major minor revision patch, _, ?_, rfl, ?_⟩
  · simp only [readLoginSeed, hseed, hmajor, hminor, hrevision, hpatch, andThen_ok, ofRead]
  · simp only [refLoginSeed, hseed, hmajor, hminor, hrevision, hpatch, andThen_ok]
    exact .ok _ _

theorem accountLogin_agrees (op : Byte) (hfit : c + accountLoginBody ≤ lim) :
    ReadsAgree s accountLoginBody (ofRead op (readAccountLogin (rxRead s) { c := c, lim := lim }))
      (refAccountLogin Config.cfg (rxRead s) { c := c, lim := lim }) := by
  rw [accountLoginBody] at hfit
  obtain ⟨username, husername⟩ := rdRaw_rxRead hinv (c := c) hlim (by omega)
  obtain ⟨password, hpassword⟩ := rdRaw_rxRead hinv (c := c + 30) hlim (by omega)
  obtain ⟨tail, htail⟩ := rdU8_rxRead hinv (c := c + 30 + 30) hlim (by omega)
  refine ⟨.accountLogin username password tail, _, ?_, exec_accountLogin_eq _ _ _ s, ?_⟩
  · simp only [readAccountLogin, husername, hpassword, htail, andThen_ok, ofRead]
  · exact tells_twoTexts husername hpassword fun t0 t1 => ⟨_, by rw [htail, andThen_ok]⟩

theorem serverSelect_agrees (op : Byte) (hfit : c + serverSelectBody ≤ lim) :
    ReadsAgree s serverSelectBody (ofRead op (readServerSelect (rxRead s) { c := c, lim := lim }))
      (refServerSelect Config.cfg (rxRead s) { c := c, lim := lim }) := by
  obtain ⟨index, hindex⟩ := rdU16_rxRead hinv hlim hfit
  refine ⟨.serverSelect index, _, ?_, rfl, ?_⟩
  · rw [readServerSelect, hindex, andThen_ok, ofRead]
  · rw [refServerSelect, hindex, andThen_ok]
    exact .ok _ _

theorem postLogin_agrees (op : Byte) (hfit : c + postLoginBody ≤ lim) :
    ReadsAgree s postLoginBody (ofRead op (readPostLogin (rxRead s) { c := c, lim := lim }))
      (refPostLogin Config.cfg (rxRead s) { c := c, lim := lim }) := by
  rw [postLoginBody] at hfit
  obtain ⟨key, hkey⟩ := rdU32_rxRead hinv (c := c) hlim (by omega)
  obtain ⟨str0, hstr0⟩ := rdRaw_rxRead hinv (c := c + 4) hlim (by omega)
  obtain ⟨str1, hstr1⟩ := rdRaw_rxRead hinv (c := c + 4 + 30) hlim (by omega)
  refine ⟨.postLogin key str0 str1, _, ?_, exec_postLogin_eq _ _ _ s, ?_⟩
  · simp only [readPostLogin, hkey, hstr0, hstr1, andThen_ok, ofRead]
  · rw [refPostLogin, hkey, andThen_ok]
    exact tells_twoTexts hstr0 hstr1 fun t0 t1 => ⟨_, rfl⟩

end Rules

/-! ## One packet -/

theorem decodeBody_short {cur lim len : Nat} (hshort : lim < cur + 1 + len) (op : Byte) (read : Ctx → Read Instr) :
    decodeBody cur lim len op read = .error (.short op) :=
  if_pos hshort

theorem decodeBody_fits {cur lim len : Nat} (hfit : cur + 1 + len ≤ lim) (op : Byte) (read : Ctx → Read Instr) :
    decodeBody cur lim len op read = ofRead op (read { c := cur + 1, lim := cur + 1 + len }) :=
  if_neg (Nat.not_lt.mpr hfit)

/-- The decoder's and the pseudocode's five-way choices by the opcode agree (45_sequencer.md R219). -/
theorem packet_agrees {s : State} {op : Byte} (hinv : s.Inv) (hop : rxRead s s.cur = some op)
    (hfit : s.cur + 1 + bodyLen Config.cfg op ≤ s.nRx) :
    ReadsAgree s (bodyLen Config.cfg op) (decodePacket (rxRead s) s.cur s.nRx)
      (refPacket Config.cfg op s.cur (rxRead s) { c := s.cur + 1, lim := s.cur + 1 + bodyLen Config.cfg op }) := by
  simp only [decodePacket, hop, refPacket, bodyLen] at hfit ⊢
  split_ifs at hfit ⊢
  · rw [decodeBody_fits hfit]
    exact loginSeed_agrees hinv hfit op (Nat.le_refl _)
  · rw [decodeBody_fits hfit]
    exact accountLogin_agrees hinv hfit op (Nat.le_refl _)
  · rw [decodeBody_fits hfit]
    exact serverSelect_agrees hinv hfit op (Nat.le_refl _)
  · rw [decodeBody_fits hfit]
    exact postLogin_agrees hinv hfit op (Nat.le_refl _)
  · exact ⟨.ignored op, _, rfl, rfl, .ok _ _⟩

/-- Where the packet at `cur` does not fit, the decoder finds a recognised opcode cut short, or an ignored one, whose
length is checked when it runs (43_packets_inbound.md R174). -/
theorem decodePacket_cut {s : State} {op : Byte} (hop : rxRead s s.cur = some op)
    (hshort : s.nRx < s.cur + 1 + bodyLen Config.cfg op) :
    decodePacket (rxRead s) s.cur s.nRx = .error (.short op) ∨
    (decodePacket (rxRead s) s.cur s.nRx = .ok (.ignored op) ∧ s.nRx < s.cur + 1 + Config.cfg.ignLen op) := by
  simp only [decodePacket, hop, bodyLen] at hshort ⊢
  split_ifs at hshort ⊢
  case neg => exact .inr ⟨rfl, hshort⟩ -- none of the recognised four
  all_goals exact .inl (decodeBody_short hshort op _)

/-! ## The step -/

/-- The outcome of the sequencer's move. -/
def Work.outcome : Work → Outcome
  | .run i s => exec i s
  | .settled o => o

theorem step_eq_outcome (s : State) : step s = (nextWork s).outcome := by
  cases hwork : nextWork s with
  | run i u => exact step_of_run hwork
  | settled o => exact step_of_settled hwork

/-- A packet that does not fit raises IncompleteBuffer, whichever way the decoder finds out (60_exceptions.md R231). -/
theorem packetWork_outcome_cut {s : State} {op : Byte} (hrun : s.seq = .run) (hcur : s.cur ≠ s.nRx)
    (hop : rxRead s s.cur = some op) (hshort : s.nRx < s.cur + 1 + bodyLen Config.cfg op) :
    (packetWork s).outcome = .next (takeFault .incompleteBuffer s) := by
  rcases decodePacket_cut hop hshort with hdecode | ⟨hdecode, hbody⟩
  · rw [packetWork_short hcur hdecode, Work.outcome]
  · rw [packetWork_ok hcur hdecode, Work.outcome]
    exact packetStep_short hrun hbody _

/-- The pseudocode's step on a packet that fits, given what its fields tell (45_sequencer.md R211). -/
theorem refSequencerStep_of_tells {s : State} {op : Byte} {body : Except FatalFault PacketEffect}
    (hcur : s.cur ≠ s.nRx) (hop : rxRead s s.cur = some op) (hfit : s.cur + 1 + bodyLen Config.cfg op ≤ s.nRx)
    (htells : Tells body (refPacket Config.cfg op s.cur (rxRead s)
      { c := s.cur + 1, lim := s.cur + 1 + bodyLen Config.cfg op })) :
    refSequencerStep Config.cfg s = .next (packetState (bodyLen Config.cfg op) body s) := by
  have hrem : ¬ s.nRx - s.cur - 1 < bodyLen Config.cfg op := by omega
  simp only [refSequencerStep, if_neg hcur, hop, if_neg hrem]
  generalize refPacket Config.cfg op s.cur (rxRead s)
    { c := s.cur + 1, lim := s.cur + 1 + bodyLen Config.cfg op } = r at htells
  cases htells with
  | ok e x => rw [packetState_commit hfit, commit_eq]
  | error f info => rw [packetState_error hfit]; rfl

theorem refSequencerStep_cut {s : State} {op : Byte} (hcur : s.cur < s.nRx) (hop : rxRead s s.cur = some op)
    (hshort : s.nRx < s.cur + 1 + bodyLen Config.cfg op) :
    refSequencerStep Config.cfg s = .next (takeFault .incompleteBuffer s) := by
  have hrem : s.nRx - s.cur - 1 < bodyLen Config.cfg op := by omega
  simp only [refSequencerStep, if_neg (Nat.ne_of_lt hcur), hop, if_pos hrem]
  rfl

/-- In a sound state in `S_RUN` the sequencer's move is the pseudocode's (45_sequencer.md R211, R212). -/
theorem packetWork_outcome_eq_ref {s : State} (hinv : s.Inv) (hrun : s.seq = .run) :
    (packetWork s).outcome = refSequencerStep Config.cfg s := by
  by_cases hcur : s.cur = s.nRx
  · rw [packetWork_end hcur, refSequencerStep, if_pos hcur]
    rfl
  · have hlt : s.cur < s.nRx := Nat.lt_of_le_of_ne hinv.cursor hcur
    obtain ⟨op, hop⟩ : ∃ op, rxRead s s.cur = some op :=
      Option.ne_none_iff_exists'.mp fun h => Nat.not_le.mpr hlt ((rxRead_eq_none_iff hinv _).mp h)
    rcases Nat.lt_or_ge s.nRx (s.cur + 1 + bodyLen Config.cfg op) with hshort | hfit
    · rw [packetWork_outcome_cut hrun hcur hop hshort, refSequencerStep_cut hlt hop hshort]
    · obtain ⟨i, body, hdecode, hexec, htells⟩ := packet_agrees hinv hop hfit
      rw [packetWork_ok hcur hdecode, refSequencerStep_of_tells hcur hop hfit htells, Work.outcome, hexec,
        packetStep_run hrun]

/-- Settles O36: the move the step makes is the sequencer's, with a hold taken off the host's moves. -/
theorem sequencerStepIsTheSpecsPseudocode : Obligations.SequencerStepIsTheSpecsPseudocode := by
  intro s hinv hrun hhold
  rw [step_eq_outcome, nextWork_held_run hrun hhold]
  exact packetWork_outcome_eq_ref (inv_port hinv _) hrun

end Sys2Proof.Machine
end

section
/-! Every pass ends (45_sequencer.md R213, 70_reset_and_hazards.md R264), and the responses of a packet that commits
(45_sequencer.md R214). -/

namespace Sys2Proof.Machine

/-- A sequencer step that answers a next state leaves `S_RUN`, or moves the cursor forward within the buffer. -/
theorem progress_of_step {s t : State} (hrun : s.seq = .run) (hhold : hostHolds s.port = true)
    (hstep : step s = .next t) : t.seq ≠ .run ∨ (s.cur < t.cur ∧ t.cur ≤ t.nRx ∧ t.nRx = s.nRx) := by
  cases stepWay_of_step hstep with
  | command hport _ _ | refused hport => rw [hport] at hhold; cases hhold
  | waits _ hseq => exact absurd hrun hseq
  | passEnds _ _ _ | packetCut _ _ => exact .inl (by simp)
  | packet _ _ hdecode hexec =>
    obtain ⟨hl, -⟩ := isPacket_of_decodePacket hdecode
    obtain ⟨-, ⟨f, rfl⟩ | ⟨len, e, hfit, -, -, rfl⟩⟩ := exec_packet_cases hl hexec
    · exact .inl (by simp)
    · rw [commit_cur, commit_nRx]
      exact .inr ⟨by dsimp only; omega, hfit, rfl⟩

/-- Settles O39: a sound state's step does not stop, and it is one of the sequencer's own. -/
theorem everyRunStepMakesProgress : Obligations.EveryRunStepMakesProgress := by
  intro s hinv hrun hhold
  obtain ⟨t, hstep⟩ := step_next_of_hostHolds hinv hhold
  exact ⟨t, hstep, step_port hstep, progress_of_step hrun hhold hstep⟩

/-- Moves that are all holds begin with one, or there are none. -/
theorem hostHolds_of_take {n : Nat} {p : List HostMove} (h : ∀ m ∈ p.take (n + 1), m = .hold) :
    hostHolds p = true := by
  cases p with
  | nil => rfl
  | cons m p =>
    obtain rfl := h m List.mem_cons_self
    rfl

/-- The first moves of the tail are among the first moves, one more of them. -/
theorem mem_take_of_mem_take_tail {n k : Nat} {p : List HostMove} {m : HostMove} (hk : k ≤ n)
    (h : m ∈ p.tail.take k) : m ∈ p.take (n + 1) := by
  cases p with
  | nil => simp at h
  | cons m' p => exact List.mem_cons_of_mem _ ((List.take_subset_take_left p hk) h)

/-- Settles O40, by strong induction on the bytes that remain: a step that stays in `S_RUN` leaves fewer. -/
theorem everyPassEnds : Obligations.EveryPassEnds := by
  intro s
  induction hrem : s.nRx - s.cur using Nat.strong_induction_on generalizing s with
  | _ rem ih =>
    subst hrem
    intro hinv hrun hholds
    obtain ⟨t, hstep, hport, hprogress⟩ := everyRunStepMakesProgress s hinv hrun (hostHolds_of_take hholds)
    by_cases htrun : t.seq = .run
    · obtain ⟨hcur, hle, hnRx⟩ := hprogress.resolve_left (not_not_intro htrun)
      have hlt : t.nRx - t.cur < s.nRx - s.cur := by omega
      obtain ⟨k, u, hk, hu, hend, hdrop⟩ := ih _ hlt t rfl (everyStepKeepsTheInvariants s t hinv hstep) htrun
        fun m hm => hholds m (mem_take_of_mem_take_tail hlt (hport ▸ hm))
      refine ⟨k + 1, u, by omega, (core_run_succ hstep).trans hu, hend, ?_⟩
      rw [hdrop, hport, List.drop_tail]
    · exact ⟨1, t, by omega, core_run_succ hstep, htrun, by rw [hport, List.drop_one]⟩

/-- Settles O41: a packet that leaves the sequencer running has committed the frames of its row. -/
theorem responsesFollowTheDispatchTable : Obligations.ResponsesFollowTheDispatchTable := by
  intro i s t hl hexec hrun
  obtain ⟨-, ⟨f, rfl⟩ | ⟨len, e, -, hframes, -, rfl⟩⟩ := exec_packet_cases hl hexec
  · cases hrun
  · rw [commit_txq, hframes]

end Sys2Proof.Machine
end

section
/-! The host's control commands and the acceptance matrix (45_sequencer.md R210, R215 to R217, R220). -/

namespace Sys2Proof.Machine

/-- Settles O49: an accepted command answers OK, and one that the matrix turns away is refused. -/
theorem acceptanceMatrixDecides : Obligations.AcceptanceMatrixDecides := by
  intro i s hl hw
  split
  · next ha =>
    obtain ⟨r, hr⟩ := exec_accepted hl hw ha
    exact ⟨_, r, hr, rfl⟩
  · next ha => exact exec_not_accepted hl hw (eq_false_of_ne_true ha)

/-! ## RX_LOAD -/

/-- The word of an RX_LOAD, its fields before `n` written as one number (30_encoding.md R93). -/
theorem encode_rxLoad (cfg : Cfg) (n : BitVec 16) (data : List Byte) :
    encode cfg (.rxLoad n data) = .command (0x70000000#32 ++ n) data := by
  have hword : (7#4 ++ 0#6 ++ 0#6 ++ (0#16 ++ n) : CommandWord) = 0x70000000#32 ++ n := BitVec.append_assoc' ..
  rw [encode, commandWord, hword]

/-- Settles O45: the load lays the data out from address 0, and the matrix turns away the rest. -/
theorem rxLoadCompletes : Obligations.RxLoadCompletes := by
  intro n data s hlen
  have hw : (Instr.rxLoad n data).wf = true := beq_iff_eq.mpr hlen
  refine ⟨?_, fun hseq hpos hcap => ⟨cellsFrom 0 data, memGet_cellsFrom 0 data, memWf_cellsFrom 0 data, ?_⟩,
    fun h => ?_⟩
  · rw [← encode_rxLoad Config.cfg]
    exact decode_encode_command Config.cfg rfl hw
  · rw [← hlen]
    exact (if_pos hlen).trans (if_pos ⟨hseq, hpos, hcap⟩)
  · refine exec_not_accepted rfl hw (decide_eq_false fun ⟨hseq, hpos, hcap⟩ => ?_)
    rcases h with h | h | h
    · exact h hseq
    · omega
    · omega

/-! ## TX_POP and RESET -/

/-- Settles O46: the answer is the front of the queue, which is none exactly where the queue is empty. -/
theorem txPopCompletes : Obligations.TxPopCompletes := by
  refine ⟨by decide, fun s => ?_⟩
  have hpop (hseq : s.seq = .idle ∨ s.seq = .fault) :
      exec .txPop s = complete (.frame s.txq.head?) { s with txq := s.txq.tail } :=
    execTxPop_of_ne_run ((idle_or_fault_iff _).mp hseq)
  refine ⟨fun hseq htxq => ?_, fun f rest hseq htxq => ?_, fun hrun => if_pos hrun⟩
  · rw [hpop hseq, complete_eq, htxq]
    rfl
  · rw [hpop hseq, complete_eq, htxq]
    rfl

/-- Settles O47: RESET gives every item its value in the reset state, and leaves the host its moves. -/
theorem resetCompletes : Obligations.ResetCompletes :=
  ⟨by decide, fun _ => rfl⟩

/-! ## RD_STATUS -/

/-- A one-bit field of a word is the bit at its place. -/
theorem getLsbD_of_extractLsb' {w i : Nat} {x : BitVec w} {b : Bool} (h : x.extractLsb' i 1 = bit b) :
    x.getLsbD i = b := by
  have hbit : (bit b).getLsbD 0 = b := by cases b <;> rfl
  rw [← hbit, ← h]
  simp

/-! Each field of the view (10_state.md R33), the ones below it dropped. -/

theorem statusView_seq (s : State) : (statusView s).extractLsb' 0 2 = seqCode s.seq :=
  BitVec.extractLsb'_append_eq_right

theorem statusView_ph (s : State) : (statusView s).extractLsb' 2 2 = phaseCode s.ph := by
  rw [statusView, BitVec.extractLsb'_append_eq_of_le (by decide)]
  exact BitVec.extractLsb'_append_eq_right

theorem statusView_cause (s : State) : (statusView s).extractLsb' 4 3 = s.cause := by
  rw [statusView]
  iterate 2 rw [BitVec.extractLsb'_append_eq_of_le (by decide)]
  exact BitVec.extractLsb'_append_eq_right

theorem statusView_unk (s : State) : (statusView s).getLsbD 7 = s.unk := by
  apply getLsbD_of_extractLsb'
  rw [statusView]
  iterate 3 rw [BitVec.extractLsb'_append_eq_of_le (by decide)]
  exact BitVec.extractLsb'_append_eq_right

theorem statusView_q (s : State) : (statusView s).getLsbD 8 = !s.bb.q.isEmpty := by
  apply getLsbD_of_extractLsb'
  rw [statusView]
  iterate 4 rw [BitVec.extractLsb'_append_eq_of_le (by decide)]
  exact BitVec.extractLsb'_append_eq_right

theorem statusView_txq (s : State) : (statusView s).getLsbD 9 = !s.txq.isEmpty := by
  apply getLsbD_of_extractLsb'
  rw [statusView]
  iterate 5 rw [BitVec.extractLsb'_append_eq_of_le (by decide)]
  exact BitVec.extractLsb'_append_eq_right

theorem statusView_reserved (s : State) : (statusView s).extractLsb' 10 6 = 0#6 := by
  rw [statusView]
  iterate 6 rw [BitVec.extractLsb'_append_eq_of_le (by decide)]
  exact BitVec.extractLsb'_append_eq_right

theorem statusView_cur (s : State) : (statusView s).extractLsb' 16 16 = BitVec.ofNat 16 s.cur := by
  rw [statusView]
  iterate 7 rw [BitVec.extractLsb'_append_eq_of_le (by decide)]
  exact BitVec.extractLsb'_eq_self

/-- A queue is non-empty exactly where it is not the empty list. -/
theorem not_isEmpty_eq_decide {α : Type} [DecidableEq α] (l : List α) : (!l.isEmpty) = decide (l ≠ []) := by
  cases l <;> rfl

/-- Settles O48: outside `S_RUN` the answer is the STATUS view. -/
theorem rdStatusCompletes : Obligations.RdStatusCompletes := by
  refine ⟨by decide, fun s => ⟨fun hseq => ?_, fun hrun => if_pos hrun⟩⟩
  have hcur (hlt : s.cur < 65536) : ((statusView s).extractLsb' 16 16).toNat = s.cur := by
    rw [statusView_cur, BitVec.toNat_ofNat, Nat.mod_eq_of_lt hlt]
  exact ⟨statusView s, statusView_seq s, statusView_ph s, statusView_cause s, statusView_unk s,
    (statusView_q s).trans (not_isEmpty_eq_decide _), (statusView_txq s).trans (not_isEmpty_eq_decide _),
    statusView_reserved s, hcur, if_neg ((idle_or_fault_iff _).mp hseq)⟩

end Sys2Proof.Machine
end

section
/-! Fault entry (60_exceptions.md R239) and the packet that does not fit (R231). -/

namespace Sys2Proof.Machine

/-- Fault entry writes `cause` and `seq`, and the code it writes is 1 or 2. -/
theorem takeFault_writes (f : FatalFault) (s : State) (p : List HostMove) :
    let t := takeFault f { s with port := p }
    t = { s with cause := t.cause, seq := .fault, port := p } ∧ (t.cause = 1#3 ∨ t.cause = 2#3) :=
  ⟨rfl, causeCode_known f⟩

/-- No command takes a fault: RESET leads to `S_IDLE`, RX_LOAD to `S_RUN`, and the others leave `seq` alone. -/
theorem seq_fault_of_commandEffect {i : Instr} {s : State} (h : (commandEffect i s).seq = .fault) :
    s.seq = .fault := by
  cases i with
  | reset | rxLoad _ _ => cases h
  | _ => exact h

/-- Settles O34: of the sequencer's own moves only a packet that is cut short and one whose rule faults end in
`S_FAULT`, both by fault entry. -/
theorem faultEntryWritesCauseAndSeqAlone : Obligations.FaultEntryWritesCauseAndSeqAlone := by
  constructor
  · intro s t hrun hhold hstep hfault
    cases stepWay_of_step hstep with
    | command hport _ _ | refused hport => rw [hport] at hhold; cases hhold
    | waits _ hseq => exact absurd hrun hseq
    | passEnds _ _ _ => cases hfault
    | packetCut _ _ => exact takeFault_writes .incompleteBuffer s s.port.tail
    | packet _ _ hdecode hexec =>
      obtain ⟨hl, -⟩ := isPacket_of_decodePacket hdecode
      obtain ⟨-, ⟨f, rfl⟩ | ⟨len, e, -, -, -, rfl⟩⟩ := exec_packet_cases hl hexec
      · exact takeFault_writes f s s.port.tail
      · simp [hrun] at hfault
  · intro i s t hl hexec hfault
    rcases exec_command_cases hl hexec with ⟨-, -, r, rfl⟩ | rfl
    · exact seq_fault_of_commandEffect hfault
    · exact hfault

/-- Settles O35: whichever way the decoder finds out, no byte of the body is looked at. -/
theorem cutPacketsFault : Obligations.CutPacketsFault := by
  intro s op hrun hhold hcur hop hcut
  have hshort : s.nRx < s.cur + 1 + bodyLen Config.cfg op := by omega
  rw [step_eq_outcome, nextWork_held_run hrun hhold]
  exact packetWork_outcome_cut (s := { s with port := s.port.tail }) hrun (Nat.ne_of_lt hcur) hop hshort

end Sys2Proof.Machine
end

section
/-! Well-formed UTF-8 is what can be cut into pieces of the table (42_field_codec.md R155): the check tries every row at
every cut, and as every piece has a byte, its fuel never runs out. -/

namespace Sys2Proof.Machine

/-- A byte is in a range of the table, its two ends included. -/
def InRange (r : Nat × Nat) (b : Byte) : Prop := r.1 ≤ b.toNat ∧ b.toNat ≤ r.2

/-- The bytes are pieces, one after another, each matching a row of the table. -/
def IsPieces (bs : List Byte) : Prop :=
  ∃ pieces : List (List Byte), bs = pieces.flatten ∧
    ∀ p ∈ pieces, ∃ row ∈ utf8Rows, List.Forall₂ InRange row p

/-! ## One piece -/

/-- `stripRow` cuts off exactly a beginning that matches the row. -/
theorem stripRow_eq_some_iff {row : List (Nat × Nat)} {bs rest : List Byte} :
    stripRow row bs = some rest ↔ ∃ p, bs = p ++ rest ∧ List.Forall₂ InRange row p := by
  induction row generalizing bs with
  | nil => simp [stripRow]
  | cons r row ih =>
    cases bs with
    | nil => simp [stripRow, List.forall₂_cons_left_iff]
    | cons b bs =>
      simp only [stripRow, Option.ite_none_right_eq_some, ih, List.forall₂_cons_left_iff]
      constructor
      · rintro ⟨hb, p, rfl, hp⟩
        exact ⟨b :: p, rfl, b, p, hb, hp, rfl⟩
      · rintro ⟨_, hbs, c, p, hc, hp, rfl⟩
        obtain ⟨rfl, rfl⟩ := List.cons.inj hbs
        exact ⟨hc, p, rfl, hp⟩

/-- What is left behind a piece is shorter: no row of the table is empty. -/
theorem length_lt_of_stripRow {row : List (Nat × Nat)} {bs rest : List Byte} (hrow : row ∈ utf8Rows)
    (h : stripRow row bs = some rest) : rest.length < bs.length := by
  obtain ⟨p, rfl, hp⟩ := stripRow_eq_some_iff.mp h
  have hpos : ∀ row ∈ utf8Rows, 0 < row.length := by decide
  have hlen : 0 < p.length := hp.length_eq ▸ hpos row hrow
  rw [List.length_append]
  omega

/-! ## All pieces -/

theorem isPieces_nil : IsPieces [] := ⟨[], rfl, nofun⟩

/-- Bytes that are not all cut yet are pieces exactly where some row cuts off a first one and pieces are left. -/
theorem isPieces_cons_iff {b : Byte} {bs : List Byte} :
    IsPieces (b :: bs) ↔ ∃ row ∈ utf8Rows, ∃ rest, stripRow row (b :: bs) = some rest ∧ IsPieces rest := by
  constructor
  · rintro ⟨_ | ⟨p, ps⟩, hbs, hmatch⟩
    · cases hbs
    · obtain ⟨⟨row, hrow, hp⟩, hps⟩ := List.forall_mem_cons.mp hmatch
      exact ⟨row, hrow, ps.flatten, stripRow_eq_some_iff.mpr ⟨p, hbs, hp⟩, ps, rfl, hps⟩
  · rintro ⟨row, hrow, rest, hstrip, ps, rfl, hps⟩
    obtain ⟨p, hbs, hp⟩ := stripRow_eq_some_iff.mp hstrip
    exact ⟨p :: ps, hbs, List.forall_mem_cons.mpr ⟨⟨row, hrow, hp⟩, hps⟩⟩

theorem utf8Pieces_succ_cons_iff {fuel : Nat} {b : Byte} {bs : List Byte} :
    utf8Pieces (fuel + 1) (b :: bs) = true ↔
      ∃ row ∈ utf8Rows, ∃ rest, stripRow row (b :: bs) = some rest ∧ utf8Pieces fuel rest = true := by
  rw [utf8Pieces, List.any_eq_true]
  refine exists_congr fun row => and_congr_right fun _ => ?_
  cases stripRow row (b :: bs) <;> simp

/-- As many cuts as bytes suffice. -/
theorem utf8Pieces_iff {fuel : Nat} {bs : List Byte} (hfuel : bs.length ≤ fuel) :
    utf8Pieces fuel bs = true ↔ IsPieces bs := by
  induction fuel generalizing bs with
  | zero =>
    obtain rfl := List.length_eq_zero_iff.mp (Nat.le_zero.mp hfuel)
    exact iff_of_true rfl isPieces_nil
  | succ fuel ih =>
    cases bs with
    | nil => exact iff_of_true rfl isPieces_nil
    | cons b bs =>
      rw [utf8Pieces_succ_cons_iff, isPieces_cons_iff]
      refine exists_congr fun row => and_congr_right fun hrow => exists_congr fun rest =>
        and_congr_right fun hstrip => ?_
      have hlt := length_lt_of_stripRow hrow hstrip
      exact ih (by omega)

theorem validUtf8_iff (raw : List Byte) : validUtf8 raw = true ↔ IsPieces raw :=
  utf8Pieces_iff (Nat.le_refl _)

theorem validAscii_iff (raw : List Byte) : validAscii raw = true ↔ ∀ b ∈ raw, b.toNat ≤ 0x7F := by
  simp [validAscii]

/-- Settles O27: each check is its own description, and an ASCII byte is a piece of its own. -/
theorem validTextIsTheTableOfPieces : Obligations.ValidTextIsTheTableOfPieces := by
  intro raw
  rw [validText_utf8, validText_ascii]
  exact ⟨validUtf8_iff raw, validAscii_iff raw, fun h => utf8Pieces_ascii raw h _ (Nat.le_refl _)⟩

end Sys2Proof.Machine
end

section
/-! The server list (44_packets_outbound.md R190): the record is written from front to back, but for the 24 zero bytes
between the name and the status, which no write reaches. -/

namespace Sys2Proof.Machine

/-- The fields of the server list in order, its padding among them. -/
theorem serverListRecord_eq (cfg : Cfg) :
    serverListRecord cfg =
      [0xA8#8] ++ beBytes 46 2 ++ [cfg.listFlags] ++ beBytes 1 2 ++ beBytes cfg.shardIndex.toNat 2 ++
        cfg.shardName.toList ++ List.replicate 24 0#8 ++ [cfg.shardStatus] ++ [cfg.shardTz] ++
        cfg.shardAddr.toList := by
  have hop : wrBytes (asmNew 46) 0 [0xA8#8] = [0xA8#8] ++ List.replicate 45 0#8 :=
    wrBytes_append_zeros (B := []) (s := [0xA8#8]) (m := 46) rfl (by decide)
  have hpad (B : List Byte) :
      B ++ List.replicate 30 0#8 = B ++ List.replicate 24 0#8 ++ List.replicate 6 0#8 := by
    rw [List.append_assoc, List.replicate_append_replicate]
  simp only [serverListRecord, hop, hpad, wrU8, wrU16, wrBytes_append_zeros, List.length_append, List.length_singleton,
    List.length_replicate, Vector.length_toList, beBytes_length, BitVec.reduceToNat, Nat.reduceAdd, Nat.reduceSub,
    Nat.reduceLeDiff, List.replicate_zero, List.append_nil]

/-- Settles O42: the record is its fields in order, the size, the count and the index big-endian. -/
theorem serverListLayout : Obligations.ServerListLayout := by
  intro cfg
  refine ⟨?_, serverListRecord_length cfg⟩
  have hsize : beBytes 46 2 = [0x00#8, 0x2E#8] := rfl
  have hcount : beBytes 1 2 = [0x00#8, 0x01#8] := rfl
  rw [serverListRecord_eq, hsize, hcount, beBytes_two, byte_mod_256]
  simp only [List.append_assoc, List.cons_append, List.nil_append]

end Sys2Proof.Machine
end
